-- ==== Sys2Proof/Word.lean ====
section
/-! DEFINITION. The value types of the CORE: register words, plane samples, packed pixels, and the
durations `Dur` (non-negative rationals, exact). -/

namespace Sys2Proof

/-- A 32-bit unsigned word: an operand register or a command word (00_scope R3 `REG_W`, 10_state R10). -/
abbrev Word := BitVec 32

/-- One plane sample or one channel, unsigned 8 bits (20_memory R41, R46). -/
abbrev Byte := BitVec 8

/-- One packed pixel, 32 bits (20_memory R46). -/
abbrev Pixel := BitVec 32

/-- An element of `Dur`: a non-negative rational, exact (43_rolling_statistics_accumulator R147). A
negative value, a NaN or an infinity cannot be written down (93_implementation_defined U18). -/
structure Dur where
  val : Rat
  nonneg : 0 ≤ val
  deriving DecidableEq, Repr

/-- The duration 0. -/
def Dur.zero : Dur := ⟨0, le_refl 0⟩

/-- A non-negative rational of the library as a `Dur`. -/
def Dur.ofNNRat (q : NNRat) : Dur := ⟨q.val, q.property⟩

/-- The duration `a/b`, the form in which 30_encoding R69 writes a `Dur` literal. R69 puts no condition on
`b`; for `b = 0`, which names no element of `Dur`, this is the duration 0 (DESIGN CHOICE, unsafe: log 29). -/
def Dur.ofFrac (a b : Nat) : Dur := ⟨(a : Rat) / (b : Rat), by positivity⟩

end Sys2Proof
end

