-- ==== Sys2Proof/Syntax.lean ====
section
/-! DEFINITION. The commands of the CORE, one constructor for each row of `spec/opcode_table.json`
(30_encoding R61). -/

namespace Sys2Proof

/-- A command. Its argument is the execution mode `m<k>` that the `MODE` field carries (30_encoding R60,
R68); the mode is inert (R66). The field operand of `TRK.AVERAGE` (R63) is part of the row. -/
inductive Instr where
  | convert (mode : Nat)
  | filtNoop (mode : Nat)
  | filtGray (mode : Nat)
  | filtEdge (mode : Nat)
  | filtBlur (mode : Nat)
  | filtSharpen (mode : Nat)
  | filtEmboss (mode : Nat)
  | trkRecord (mode : Nat)
  | trkFramerate (mode : Nat)
  | trkAverageConv (mode : Nat)
  | trkAverageFilt (mode : Nat)
  | trkAverageComp (mode : Nat)
  | trkAverageTotal (mode : Nat)
  | trkAverageE2e (mode : Nat)
  | trkReset (mode : Nat)
  deriving DecidableEq, Repr

/-- The execution mode a command carries. -/
def Instr.mode : Instr → Nat
  | .convert m => m
  | .filtNoop m => m
  | .filtGray m => m
  | .filtEdge m => m
  | .filtBlur m => m
  | .filtSharpen m => m
  | .filtEmboss m => m
  | .trkRecord m => m
  | .trkFramerate m => m
  | .trkAverageConv m => m
  | .trkAverageFilt m => m
  | .trkAverageComp m => m
  | .trkAverageTotal m => m
  | .trkAverageE2e m => m
  | .trkReset m => m

end Sys2Proof
end

