-- ==== Sys2Proof/WellFormed.lean ====
section
/-! DEFINITION. Which commands can be written as a word: the execution mode is one of the four that the
2-bit `MODE` field holds (30_encoding R60, R68). -/

namespace Sys2Proof

/-- The only check: `k` of `m<k>` is in `0 .. 3` (30_encoding R68). -/
def Instr.wf (i : Instr) : Bool := decide (i.mode < 4)

/-- A command that has a word. -/
abbrev WellFormed (i : Instr) : Prop := i.wf = true

end Sys2Proof
end

