-- ==== Sys2Proof/Decode.lean ====
section
/-! DEFINITION. The decoder, total on every 32-bit word, and the encoder (30_encoding R60 to R67). -/

namespace Sys2Proof

/-- Why a word is illegal, by the cases that 30_encoding R65 lists. -/
inductive Illegal where
  /-- a non-zero `ZERO` or `Z` bit -/
  | reservedBit
  /-- `UNIT ≥ 3` -/
  | unit
  /-- a function code the unit does not have -/
  | function
  /-- an `ARG` value the command does not take -/
  | argument
  deriving DecidableEq, Repr

/-- What a word decodes to. -/
inductive Decoded where
  | instr (i : Instr)
  | illegal (why : Illegal)
  deriving DecidableEq, Repr

/-- The bits that take part in the match: all but `MODE` (30_encoding R61). -/
def matchMask : Word := 0xFFFFCFFF#32

/-- The field `MODE`, bits 13 to 12. -/
def modeField (w : Word) : Nat := (w.extractLsb' 12 2).toNat

/-- The field `UNIT`, bits 7 to 4. -/
def unitField (w : Word) : Nat := (w.extractLsb' 4 4).toNat

/-- The field `FN`, bits 3 to 0. -/
def fnField (w : Word) : Nat := (w.extractLsb' 0 4).toNat

/-- The reserved bits: `ZERO` (31 to 14) and `Z` (11). -/
def reservedField (w : Word) : Nat := (w.extractLsb' 14 18).toNat + (w.extractLsb' 11 1).toNat

/-- Whether the unit has the function: 30_encoding R61's columns `UNIT` and `FN`. -/
def hasFunction (unit fn : Nat) : Bool :=
  (unit == 0 && fn == 1) || (unit == 1 && decide (fn < 6)) || (unit == 2 && decide (fn < 4))

/-- The name under which an illegal word is rejected; the cases of 30_encoding R65 in its order. -/
def whyIllegal (w : Word) : Illegal :=
  if reservedField w ≠ 0 then .reservedBit
  else if 3 ≤ unitField w then .unit
  else if hasFunction (unitField w) (fnField w) = false then .function
  else .argument

/-- Decoding (30_encoding R67): drop `MODE` from the match, select the row. It depends on no state. -/
def decode (w : Word) : Decoded :=
  let m := w &&& matchMask
  let k := modeField w
  if m = 0x00000001#32 then .instr (.convert k)
  else if m = 0x00000010#32 then .instr (.filtNoop k)
  else if m = 0x00000011#32 then .instr (.filtGray k)
  else if m = 0x00000012#32 then .instr (.filtEdge k)
  else if m = 0x00000013#32 then .instr (.filtBlur k)
  else if m = 0x00000014#32 then .instr (.filtSharpen k)
  else if m = 0x00000015#32 then .instr (.filtEmboss k)
  else if m = 0x00000020#32 then .instr (.trkRecord k)
  else if m = 0x00000021#32 then .instr (.trkFramerate k)
  else if m = 0x00000022#32 then .instr (.trkAverageConv k)
  else if m = 0x00000122#32 then .instr (.trkAverageFilt k)
  else if m = 0x00000222#32 then .instr (.trkAverageComp k)
  else if m = 0x00000322#32 then .instr (.trkAverageTotal k)
  else if m = 0x00000422#32 then .instr (.trkAverageE2e k)
  else if m = 0x00000023#32 then .instr (.trkReset k)
  else .illegal (whyIllegal w)

/-- The word of a row with `MODE = 0`: the fields `ARG`, `UNIT`, `FN` put in place (30_encoding R60). -/
def rowWord (arg : BitVec 3) (unit fn : BitVec 4) : Word :=
  (0#21 ++ arg ++ unit ++ fn : BitVec (21 + 3 + 4 + 4))

/-- The columns `ARG`, `UNIT`, `FN` of 30_encoding R61. -/
def baseWord : Instr → Word
  | .convert _ => rowWord 0 0 1
  | .filtNoop _ => rowWord 0 1 0
  | .filtGray _ => rowWord 0 1 1
  | .filtEdge _ => rowWord 0 1 2
  | .filtBlur _ => rowWord 0 1 3
  | .filtSharpen _ => rowWord 0 1 4
  | .filtEmboss _ => rowWord 0 1 5
  | .trkRecord _ => rowWord 0 2 0
  | .trkFramerate _ => rowWord 0 2 1
  | .trkAverageConv _ => rowWord 0 2 2
  | .trkAverageFilt _ => rowWord 1 2 2
  | .trkAverageComp _ => rowWord 2 2 2
  | .trkAverageTotal _ => rowWord 3 2 2
  | .trkAverageE2e _ => rowWord 4 2 2
  | .trkReset _ => rowWord 0 2 3

/-- The mode put into bits 13 to 12 (30_encoding R68: "or-ed with `k << 12`"). -/
def modeWord (k : Nat) : Word := (BitVec.ofNat 2 k).setWidth 32 <<< 12

/-- The word of a well-formed command. -/
def encode (i : Instr) : Word := baseWord i ||| modeWord i.mode

/-- What the decoder reads from a table word: the CORE has no bytes in a command, a command is one 32-bit
word written to `CMD` (30_encoding R60), so the word's low `nbits` bits are that word and the rest is 0. -/
def decodeTableWord (nbits w : Nat) : Option Instr :=
  match decode (BitVec.ofNat 32 (w % 2 ^ nbits)) with
  | .instr i => some i
  | .illegal _ => none

end Sys2Proof
end

