-- ==== Sys2Proof/Config.lean ====
section
/-! DEFINITION. What an instance of the CORE fixes (00_scope R3) and the free values. A constant
without a body is an OPEN parameter or a draw: no proof can know its value. -/

namespace Sys2Proof

/-- Capacity in bytes of the plane space `PY` (OPEN, 20_memory R40). -/
opaque Config.planeBytesY : Nat

/-- Capacity in bytes of the plane space `PU` (OPEN, 20_memory R40). -/
opaque Config.planeBytesU : Nat

/-- Capacity in bytes of the plane space `PV` (OPEN, 20_memory R40). -/
opaque Config.planeBytesV : Nat

/-- Capacity in words of each of `FB0`, `FB1` (OPEN, 20_memory R40). -/
opaque Config.fbWords : Nat

/-- The tracker's ring capacity of a default instance: "default 30" (00_scope R3, 70_reset R181). Every
state carries its own capacity, so statements hold for every `N`. -/
def Config.defaultRingCapacity : Nat := 30

/-- The weight `K_BLUR[ky][kx]` (OPEN: 42_convolution_filter_bank R123, 93_implementation_defined U14). -/
opaque Config.blurWeight : Nat → Nat → Int

/-- The weight `K_EMBOSS[ky][kx]` (OPEN: 42_convolution_filter_bank R125, 93_implementation_defined U15). -/
opaque Config.embossWeight : Nat → Nat → Int

/-- FREE VALUE: the answer of the time source to a read of it (10_state R18, 93_implementation_defined
U11). It is applied to a plain counter of draws, so that no two reads are related. -/
opaque Config.timeAnswer : Nat → NNRat

/-- FREE VALUE: what `TRK.FRAMERATE` writes when the elapsed time is not positive
(43_rolling_statistics_accumulator R148, 93_implementation_defined U10). -/
opaque Config.unspecifiedRate : Nat → NNRat

end Sys2Proof
end

