-- ==== Sys2Proof/Machine/State.lean ====
section
/-! DEFINITION. The state of the CORE, of its host and of the model's bookkeeping, as plain data, and
the state after reset (10_state, 20_memory, 60_exceptions). -/

namespace Sys2Proof.Machine

/-- The twenty registers by name (20_memory R57). -/
inductive RegName where
  | cmd
  | cscW | cscH | cscF | yRs | yPs | uRs | uPs | vRs | vPs
  | fb0W | fb0H | fb1W | fb1H
  | sample0 | sample1 | sample2 | sample3 | sample4
  | result
  deriving DecidableEq, Repr

/-- The byte spaces (20_memory R41). -/
inductive Plane where
  | py | pu | pv
  deriving DecidableEq, Repr

/-- The word spaces (20_memory R42). -/
inductive Buffer where
  | fb0 | fb1
  deriving DecidableEq, Repr

/-- A location that can be unwritten: a register or `SPACE:index` (60_exceptions R162). -/
inductive Location where
  | reg (r : RegName)
  | byte (p : Plane) (i : Nat)
  | word (b : Buffer) (i : Nat)
  deriving DecidableEq, Repr

/-- The five fault kinds of 60_exceptions R162, each with what the model records. -/
inductive Fault where
  /-- The decoder, for any illegal word written to `CMD` (30_encoding R65). SAFE: the source makes the
  behaviour undefined and the model stops. -/
  | illegalCommand (w : Word)
  /-- Every command that reads a register, plane byte or buffer word that is unspecified (10_state R20).
  SAFE: the model stops. No register is unspecified in `State.reset` (log 1). -/
  | unwritten (l : Location)
  /-- `CONVERT` with `CSC_F = 0`. SAFE: the model stops. -/
  | factorZero
  /-- `CONVERT` and every `FILT.*`: the buffer has more words than `FB_WORDS`. SAFE: the model stops. -/
  | bufferIndex (n : Nat)
  /-- `CONVERT`: a sample index at or beyond its plane's capacity. SAFE: the model stops. -/
  | planeIndex (p : Plane) (i : Nat)
  deriving DecidableEq, Repr

/-- Why the model gives an action no step. -/
inductive Refusal where
  /-- Raised by `exec` for an instruction without a meaning; no arm of this model does. SAFE. -/
  | notModelled (mnemonic : String)
  /-- A host read of `CMD` (60_exceptions R171). SAFE. -/
  | readOfCmd
  /-- A host write to the space `FB1` (60_exceptions R171). SAFE. -/
  | writeToFb1
  /-- A host access to a register number `≥ 20` (60_exceptions R171, 20_memory R57). SAFE. -/
  | noSuchRegister (n : Nat)
  /-- A host access to a memory index at or beyond the space's capacity (60_exceptions R171). SAFE. -/
  | beyondCapacity (l : Location)
  /-- A host read of a location that is unspecified (60_exceptions R171). SAFE. -/
  | unspecifiedRead (l : Location)
  /-- A host write of a `Dur` value to a register that holds a 32-bit word (10_state R10, R11; log 14). SAFE. -/
  | durToWordRegister (r : RegName)
  deriving DecidableEq, Repr

/-- A register: the value it holds and its written mark (10_state R20). -/
structure RegCell (α : Type) where
  val : α
  written : Bool
  deriving DecidableEq, Repr

/-- The nine converter operand registers, numbers 1 to 9 (10_state R10). -/
structure CscRegs where
  w : RegCell Word
  h : RegCell Word
  f : RegCell Word
  yRs : RegCell Word
  yPs : RegCell Word
  uRs : RegCell Word
  uPs : RegCell Word
  vRs : RegCell Word
  vPs : RegCell Word
  deriving DecidableEq, Repr

/-- The five value operand registers `SAMPLE0` to `SAMPLE4`, numbers 14 to 18 (10_state R16). -/
structure SampleRegs where
  d0 : RegCell Dur
  d1 : RegCell Dur
  d2 : RegCell Dur
  d3 : RegCell Dur
  d4 : RegCell Dur
  deriving DecidableEq, Repr

/-- One ring slot: five durations in the order of 10_state R16, then the capture time (10_state R14). -/
structure Slot where
  d0 : Dur
  d1 : Dur
  d2 : Dur
  d3 : Dur
  d4 : Dur
  t : Dur
  deriving DecidableEq, Repr

/-- The performance tracker (10_state R14): capacity `N`, fill counter, write position, ring. -/
structure Tracker where
  n : Nat
  fill : Nat
  pos : Nat
  ring : List Slot
  deriving DecidableEq, Repr

/-- The capacities of the memory spaces (20_memory R40), parameters of the instance (log 5). -/
structure Capacities where
  planeY : Nat
  planeU : Nat
  planeV : Nat
  fbWords : Nat
  deriving DecidableEq, Repr

/-- A host action (30_encoding R69). A command is `wr 0 w`. -/
inductive HostAction where
  /-- `WR <reg>, <value>` with an integer value -/
  | wr (reg : Nat) (v : Word)
  /-- `WR <reg>, <value>` with a `Dur` literal -/
  | wrDur (reg : Nat) (d : Dur)
  /-- `RD <reg>` -/
  | rd (reg : Nat)
  /-- `ST <plane>[<i>], <value>` -/
  | stByte (p : Plane) (i : Nat) (v : Byte)
  /-- `ST <buffer>[<i>], <value>` -/
  | stWord (b : Buffer) (i : Nat) (v : Pixel)
  /-- `LD <plane>[<i>]` -/
  | ldByte (p : Plane) (i : Nat)
  /-- `LD <buffer>[<i>]` -/
  | ldWord (b : Buffer) (i : Nat)
  /-- `TIME <t>`: the pseudo-action that fixes the next answer of the time source -/
  | time (t : Dur)
  /-- the platform's reset signal (70_reset R180; log 12) -/
  | reset
  deriving DecidableEq, Repr

/-- A value the host has read. -/
inductive Observed where
  | word (v : Word)
  | dur (d : Dur)
  | byte (v : Byte)
  | pixel (v : Pixel)
  deriving DecidableEq, Repr

/-- The host agent: its remaining actions, how many it has performed (10_state R12), what it has read. -/
structure HostAgent where
  todo : List HostAction
  index : Nat
  seen : List Observed
  deriving DecidableEq, Repr

/-- The whole state. The memories are lists of (index, value) pairs in rising order; an unlisted index
is unwritten, so the list is also the written marks of the space (10_state R20). `timeNext` holds one fixed
answer of `TIME`, the latest (log 26); `draws` counts the draws (log 8). -/
structure State where
  csc : CscRegs
  fb0W : RegCell Word
  fb0H : RegCell Word
  fb1W : RegCell Word
  fb1H : RegCell Word
  smp : SampleRegs
  result : RegCell Dur
  trk : Tracker
  py : List Host.Cell
  pu : List Host.Cell
  pv : List Host.Cell
  fb0 : List (Nat × Pixel)
  fb1 : List (Nat × Pixel)
  cap : Capacities
  faultMark : Option Fault
  timeNext : Option Dur
  draws : Nat
  host : HostAgent
  deriving DecidableEq, Repr

/-- A slot of zeros: what an invalid slot holds at reset; no rule reads it (log 4). -/
def Slot.zero : Slot := ⟨Dur.zero, Dur.zero, Dur.zero, Dur.zero, Dur.zero, Dur.zero⟩

/-- A freshly constructed tracker of capacity `n` (10_state R22): no valid slot. -/
def Tracker.fresh (n : Nat) : Tracker := ⟨n, 0, 0, List.replicate n Slot.zero⟩

/-- Nine operand registers at the values the model names (log 1, log 2), with the given written mark. -/
def CscRegs.initial (b : Bool) : CscRegs :=
  ⟨⟨0, b⟩, ⟨0, b⟩, ⟨1, b⟩, ⟨0, b⟩, ⟨0, b⟩, ⟨0, b⟩, ⟨0, b⟩, ⟨0, b⟩, ⟨0, b⟩⟩

/-- Five value registers at 0 (log 1), with the given written mark. -/
def SampleRegs.initial (b : Bool) : SampleRegs :=
  ⟨⟨Dur.zero, b⟩, ⟨Dur.zero, b⟩, ⟨Dur.zero, b⟩, ⟨Dur.zero, b⟩, ⟨Dur.zero, b⟩⟩

/-- A CORE just constructed (70_reset R180) with capacities `c` and ring capacity `n`, its register
marks all `b`, beside a host with nothing to do. -/
def State.constructed (b : Bool) (c : Capacities) (n : Nat) : State where
  csc := CscRegs.initial b
  fb0W := ⟨0, b⟩
  fb0H := ⟨0, b⟩
  fb1W := ⟨0, b⟩
  fb1H := ⟨0, b⟩
  smp := SampleRegs.initial b
  result := ⟨Dur.zero, b⟩
  trk := Tracker.fresh n
  py := []
  pu := []
  pv := []
  fb0 := []
  fb1 := []
  cap := c
  faultMark := none
  timeNext := none
  draws := 0
  host := ⟨[], 0, []⟩

/-- The instance's capacities: the OPEN parameters. -/
def Capacities.ofConfig : Capacities :=
  ⟨Config.planeBytesY, Config.planeBytesU, Config.planeBytesV, Config.fbWords⟩

/-- The reset state with the written marks exactly as 10_state R22 has them: every register unspecified,
so that a command that reads one faults (60_exceptions R162). -/
def State.unmarked : State :=
  State.constructed false Capacities.ofConfig Config.defaultRingCapacity

/-- The state after reset. As `State.unmarked`, but every register holds a value (log 1, log 2): its mark
is set, so that a program can run from reset. UNSAFE. -/
def State.reset : State :=
  State.constructed true Capacities.ofConfig Config.defaultRingCapacity

end Sys2Proof.Machine
end

