-- ==== Sys2Proof/Machine/Ops.lean ====
section
/-! DEFINITION. The named operations: memory spaces, register cells, ending a command, recording a
fault, the hardware reset, the host's position. -/

namespace Sys2Proof.Machine

/-! ## Memory spaces (20_memory R40 to R45; 10_state R20) -/

/-- The value at an index; none where the location is unwritten. -/
def Memory.read {α : Type} : List (Nat × α) → Nat → Option α
  | [], _ => none
  | (j, v) :: m, i => if j = i then some v else Memory.read m i

/-- Write one location, keeping the indices rising. -/
def Memory.write {α : Type} : List (Nat × α) → Nat → α → List (Nat × α)
  | [], i, v => [(i, v)]
  | (j, u) :: m, i, v =>
    if i < j then (i, v) :: (j, u) :: m
    else if i = j then (i, v) :: m
    else (j, u) :: Memory.write m i v

/-- Replace a whole space by a buffer of `n` words: the words below `n` written, every other location
unspecified (20_memory R44, R55; 70_reset R188). -/
def Memory.fill {α : Type} (n : Nat) (f : Nat → α) : List (Nat × α) :=
  (List.range n).map fun i => (i, f i)

/-- The canonical form: indices strictly rising. An unlisted location reads as no value, so no entry can
equal what an unlisted one reads as. -/
def Memory.wf {α : Type} : List (Nat × α) → Bool
  | [] => true
  | [_] => true
  | (i, _) :: (j, v) :: m => decide (i < j) && Memory.wf ((j, v) :: m)

/-- Every listed index is below the capacity. -/
def Memory.below {α : Type} (cap : Nat) (m : List (Nat × α)) : Bool := m.all fun c => decide (c.1 < cap)

/-- The plane space by name. -/
def plane (s : State) : Plane → List Host.Cell
  | .py => s.py
  | .pu => s.pu
  | .pv => s.pv

/-- The capacity of a plane space (20_memory R40). -/
def planeCapacity (s : State) : Plane → Nat
  | .py => s.cap.planeY
  | .pu => s.cap.planeU
  | .pv => s.cap.planeV

/-- The buffer space by name; both have `FB_WORDS` words (20_memory R40). -/
def buffer (s : State) : Buffer → List (Nat × Pixel)
  | .fb0 => s.fb0
  | .fb1 => s.fb1

/-- The state with one byte of a plane written. -/
def storeByte (s : State) (p : Plane) (i : Nat) (v : Byte) : State :=
  match p with
  | .py => { s with py := Memory.write s.py i v }
  | .pu => { s with pu := Memory.write s.pu i v }
  | .pv => { s with pv := Memory.write s.pv i v }

/-! ## Register cells (10_state R20) -/

/-- A cell that has been written with `v`. -/
def RegCell.set {α : Type} (v : α) : RegCell α := ⟨v, true⟩

/-- The fault of reading an unwritten register in a command (60_exceptions R162). -/
def registerFault {α : Type} (c : RegCell α) (r : RegName) : Option Fault :=
  if c.written then none else some (.unwritten (.reg r))

/-! ## Ending a command (60_exceptions R164, R165) -/

/-- The first fault of a list of conditions in the order in which they are evaluated (60_exceptions R164). -/
def firstFault : List (Option Fault) → Option Fault
  | [] => none
  | some f :: _ => some f
  | none :: l => firstFault l

/-- A command whose first failing condition is `f` ends in that fault and writes nothing (60_exceptions
R165); one with no failing condition ends in `t`. -/
def finish (f : Option Fault) (t : State) : Host.Outcome State Fault Refusal :=
  match f with
  | some e => .fault e
  | none => .next t

/-- Fault entry (60_exceptions R165): the mark takes the fault if it is empty; nothing else changes. -/
def recordFault (s : State) (f : Fault) : State :=
  match s.faultMark with
  | some _ => s
  | none => { s with faultMark := some f }

/-- The code of a fault kind (60_exceptions R162). -/
def faultCode : Fault → Nat
  | .illegalCommand _ => 1
  | .unwritten _ => 2
  | .factorZero => 3
  | .bufferIndex _ => 4
  | .planeIndex _ _ => 5

/-- The hardware reset (70_reset R180 to R182): the CORE is constructed anew with the same capacities and
ring capacity. The agents outside the CORE stay as they are: the host, the time source, the count of
draws (log 12). -/
def hardwareReset (s : State) : State :=
  { State.constructed true s.cap s.trk.n with
    timeNext := s.timeNext, draws := s.draws, host := s.host }

/-! ## Free values (00_scope section 4.4 `draw`) -/

/-- The answer `TIME` gives to the read of this step: the fixed one if a test fixed it (30_encoding
R69), else a draw (10_state R18, 60_exceptions R169). -/
def timeAnswer (s : State) : Dur :=
  match s.timeNext with
  | some t => t
  | none => Dur.ofNNRat (Config.timeAnswer s.draws)

/-- The draw that `TRK.FRAMERATE` writes for a non-positive elapsed time
(43_rolling_statistics_accumulator R148). -/
def unspecifiedRate (s : State) : Dur := Dur.ofNNRat (Config.unspecifiedRate s.draws)

/-! ## The host's position (10_state R12) -/

/-- One action done: it leaves the list and the index advances by exactly 1. -/
def advanceHost (s : State) : State :=
  { s with host := { s.host with todo := s.host.todo.tail, index := s.host.index + 1 } }

/-- The host has read a value. -/
def observe (s : State) (v : Observed) : State :=
  { s with host := { s.host with seen := s.host.seen ++ [v] } }

/-- A run has ended: the list is exhausted and no fault is recorded (70_reset R189). -/
def runEnded (s : State) : Bool := s.host.todo.isEmpty && s.faultMark.isNone

end Sys2Proof.Machine
end

