-- ==== Sys2Proof/Machine/Operands.lean ====
section
/-! DEFINITION. Operand forms: packed pixels and their channels, the reductions to a channel's range,
luma, kernels, sample and pixel indices, and the reads a command makes of its input. -/

namespace Sys2Proof.Machine

/-! ## Packed pixels (20_memory R46, 00_scope section 4.3) -/

/-- `A(p) = p[31:24]`. -/
def alpha (p : Pixel) : Byte := p.extractLsb' 24 8

/-- `R(p) = p[23:16]`. -/
def red (p : Pixel) : Byte := p.extractLsb' 16 8

/-- `G(p) = p[15:8]`. -/
def green (p : Pixel) : Byte := p.extractLsb' 8 8

/-- `B(p) = p[7:0]`. -/
def blue (p : Pixel) : Byte := p.extractLsb' 0 8

/-- `pack(a, r, g, b)`. -/
def pack (a r g b : Byte) : Pixel := (a ++ r ++ g ++ b : BitVec (8 + 8 + 8 + 8))

/-- `OPAQUE`. -/
def opaqueAlpha : Byte := 0xFF#8

/-- `grey(v)`. -/
def grey (v : Byte) : Pixel := pack opaqueAlpha v v v

/-- `BLACK`. -/
def black : Pixel := pack opaqueAlpha 0 0 0

/-- `clamp8(v)` (00_scope section 4.2). -/
def clamp8 (v : Int) : Byte := if v < 0 then 0#8 else if 255 < v then 255#8 else BitVec.ofInt 8 v

/-- A channel value as an integer. -/
def byteInt (b : Byte) : Int := (b.toNat : Int)

/-- `luma(p)` (41_point_filter_unit R102): no rounding beyond truncation, always below 256. -/
def luma (p : Pixel) : Byte :=
  BitVec.ofNat 8 ((77 * (red p).toNat + 150 * (green p).toNat + 29 * (blue p).toNat) >>> 8)

/-! ## Kernels (42_convolution_filter_bank R120) -/

/-- A square matrix of signed integer weights, `weights[ky][kx]`, with a divisor and a bias. -/
structure Kernel where
  size : Nat
  weights : List (List Int)
  divisor : Int
  bias : Int
  deriving DecidableEq, Repr

/-- The radius `r = s div 2`. -/
def kernelRadius (k : Kernel) : Nat := k.size / 2

/-- The weight `K[ky][kx]`. -/
def kernelWeight (k : Kernel) (ky kx : Nat) : Int := (k.weights.getD ky []).getD kx 0

/-- The matrix of a weight function, row `ky`, column `kx`. -/
def kernelRows (s : Nat) (w : Nat → Nat → Int) : List (List Int) :=
  (List.range s).map fun ky => (List.range s).map fun kx => w ky kx

/-- `K_SHARPEN` (42_convolution_filter_bank R124). -/
def sharpenKernel : Kernel := ⟨3, [[0, -1, 0], [-1, 5, -1], [0, -1, 0]], 1, 0⟩

/-- `K_BLUR` (42_convolution_filter_bank R123): 5×5, divisor 256, bias 0, weights OPEN. -/
def blurKernel : Kernel := ⟨5, kernelRows 5 Config.blurWeight, 256, 0⟩

/-- `K_EMBOSS` (42_convolution_filter_bank R125): 3×3, divisor 1, bias 128, weights OPEN. -/
def embossKernel : Kernel := ⟨3, kernelRows 3 Config.embossWeight, 1, 128⟩

/-! ## Indices: exact naturals (20_memory R41, R42, R45) -/

/-- The index of the sample at column `c`, row `r` of a plane (20_memory R41). -/
def sampleIndex (rowStride pixelStride : RegCell Word) (c r : Nat) : Nat :=
  r * rowStride.val.toNat + c * pixelStride.val.toNat

/-- The downscale factor `f`. -/
def factor (s : State) : Nat := s.csc.f.val.toNat

/-- `DW = W div f` (40_color_space_converter R80). -/
def outWidth (s : State) : Nat := s.csc.w.val.toNat / factor s

/-- `DH = H div f` (40_color_space_converter R80). -/
def outHeight (s : State) : Nat := s.csc.h.val.toNat / factor s

/-- The luma index of a destination pixel (40_color_space_converter R81, R82). -/
def lumaIndex (s : State) (dx dy : Nat) : Nat :=
  sampleIndex s.csc.yRs s.csc.yPs (dx * factor s) (dy * factor s)

/-- The U index: the source coordinate halved (40_color_space_converter R82). -/
def uIndex (s : State) (dx dy : Nat) : Nat :=
  sampleIndex s.csc.uRs s.csc.uPs (dx * factor s / 2) (dy * factor s / 2)

/-- The V index: the source coordinate halved (40_color_space_converter R82). -/
def vIndex (s : State) (dx dy : Nat) : Nat :=
  sampleIndex s.csc.vRs s.csc.vPs (dx * factor s / 2) (dy * factor s / 2)

/-- The width `W` of the filter input. -/
def inWidth (s : State) : Nat := s.fb0W.val.toNat

/-- The height `H` of the filter input. -/
def inHeight (s : State) : Nat := s.fb0H.val.toNat

/-- Interior for radius `r` (42_convolution_filter_bank R121), over the naturals. -/
def interior (r w h x y : Nat) : Bool :=
  decide (r ≤ x) && decide (x + r < w) && decide (r ≤ y) && decide (y + r < h)

/-- The word indices of the neighbourhood of radius `r` around `(x, y)`, row-major. Used for interior
pixels only, where no subtraction goes below 0 (42_convolution_filter_bank R129). -/
def neighbourhood (r w x y : Nat) : List Nat :=
  (List.range (2 * r + 1)).flatMap fun ky =>
    (List.range (2 * r + 1)).map fun kx => (y + ky - r) * w + (x + kx - r)

/-- The word indices a filter of radius `r` reads for pixel number `i`: an interior pixel its
neighbourhood, any other pixel itself (20_memory R53, 60_exceptions R164 item 6). -/
def pixelReads (r w h i : Nat) : List Nat :=
  if interior r w h (i % w) (i / w) then neighbourhood r w (i % w) (i / w) else [i]

/-- All word indices a filter of radius `r` reads, in row-major order of the reading pixel. -/
def readOrder (r w h : Nat) : List Nat := (List.range (w * h)).flatMap (pixelReads r w h)

/-! ## Reads of the input, after the conditions have shown every location written -/

/-- A plane byte. The default is never reached: an unwritten byte has faulted before. -/
def byteAt (m : List Host.Cell) (i : Nat) : Byte := (Memory.read m i).getD 0

/-- `src(x, y)` (41_point_filter_unit R100). The default is never reached, as above. -/
def srcPixel (s : State) (x y : Nat) : Pixel := (Memory.read s.fb0 (y * inWidth s + x)).getD 0

/-! ## Durations (43_rolling_statistics_accumulator R147): exact arithmetic -/

/-- The sum of a list of durations. -/
def durSum (l : List Dur) : Rat := (l.map Dur.val).sum

/-- A sum of durations is not negative. -/
theorem durSum_nonneg (l : List Dur) : 0 ≤ durSum l :=
  List.sum_nonneg (by simp only [List.mem_map]; rintro _ ⟨d, _, rfl⟩; exact d.nonneg)

/-- The arithmetic mean of a list of durations with divisor `n`. -/
def durMean (l : List Dur) (n : Nat) : Dur :=
  ⟨durSum l / (n : Rat), div_nonneg (durSum_nonneg l) (Nat.cast_nonneg n)⟩

/-- `k` intervals in the elapsed time `b − a`, for `a < b`: the frame rate `k / (b − a)`. -/
def durRate (k : Nat) (a b : Dur) (h : a.val < b.val) : Dur :=
  ⟨(k : Rat) / (b.val - a.val), div_nonneg (Nat.cast_nonneg k) (sub_nonneg.mpr h.le)⟩

/-- An integer `Dur` literal (30_encoding R69). -/
def durOfNat (n : Nat) : Dur := ⟨(n : Rat), Nat.cast_nonneg n⟩

end Sys2Proof.Machine
end

