-- ==== Sys2Proof/Machine/Flags.lean ====
section
/-! DEFINITION. The CORE has no flags, condition codes or predicates (10_state R13), so there is no flag
computation. What a command does test are its preconditions: this file holds the conditions under which a
command faults, in the order of 60_exceptions R164. -/

namespace Sys2Proof.Machine

/-! ## Single conditions (60_exceptions R162, R163) -/

/-- `FactorZero`. -/
def factorFault (s : State) : Option Fault := if factor s = 0 then some .factorZero else none

/-- `BufferIndex`: a buffer of `n` words does not fit in `FB_WORDS`; records the product. -/
def bufferFault (s : State) (n : Nat) : Option Fault :=
  if s.cap.fbWords < n then some (.bufferIndex n) else none

/-- `PlaneIndex`: the index is not below the plane's capacity. -/
def planeIndexFault (s : State) (p : Plane) (i : Nat) : Option Fault :=
  if i < planeCapacity s p then none else some (.planeIndex p i)

/-- `Unwritten` for a byte of a plane. -/
def byteFault (s : State) (p : Plane) (i : Nat) : Option Fault :=
  match Memory.read (plane s p) i with
  | some _ => none
  | none => some (.unwritten (.byte p i))

/-- `Unwritten` for a word of `FB0`. -/
def wordFault (s : State) (i : Nat) : Option Fault :=
  match Memory.read s.fb0 i with
  | some _ => none
  | none => some (.unwritten (.word .fb0 i))

/-! ## The conditions of a command, first failing one wins (60_exceptions R164) -/

/-- Operand registers of `CONVERT`, lowest number first (R164 item 2). -/
def cscRegisterFault (s : State) : Option Fault :=
  firstFault
    [registerFault s.csc.w .cscW, registerFault s.csc.h .cscH, registerFault s.csc.f .cscF,
     registerFault s.csc.yRs .yRs, registerFault s.csc.yPs .yPs, registerFault s.csc.uRs .uRs,
     registerFault s.csc.uPs .uPs, registerFault s.csc.vRs .vRs, registerFault s.csc.vPs .vPs]

/-- Operand registers of a filter, lowest number first (R164 item 2). -/
def dimensionFault (s : State) : Option Fault :=
  firstFault [registerFault s.fb0W .fb0W, registerFault s.fb0H .fb0H]

/-- Operand registers of `TRK.RECORD`, lowest number first (R164 item 2). -/
def sampleFault (s : State) : Option Fault :=
  firstFault
    [registerFault s.smp.d0 .sample0, registerFault s.smp.d1 .sample1, registerFault s.smp.d2 .sample2,
     registerFault s.smp.d3 .sample3, registerFault s.smp.d4 .sample4]

/-- Sample indices of one destination pixel, in the order Y, U, V (R164 item 5). -/
def pixelIndexFault (s : State) (dx dy : Nat) : Option Fault :=
  firstFault
    [planeIndexFault s .py (lumaIndex s dx dy), planeIndexFault s .pu (uIndex s dx dy),
     planeIndexFault s .pv (vIndex s dx dy)]

/-- Plane bytes of one destination pixel, in the order Y, U, V (R164 item 6). -/
def pixelByteFault (s : State) (dx dy : Nat) : Option Fault :=
  firstFault
    [byteFault s .py (lumaIndex s dx dy), byteFault s .pu (uIndex s dx dy),
     byteFault s .pv (vIndex s dx dy)]

/-- A condition over every pixel of a buffer of width `w` and height `h`, in row-major order. -/
def firstPixelFault (w h : Nat) (c : Nat → Nat → Option Fault) : Option Fault :=
  (List.range (w * h)).findSome? fun i => c (i % w) (i / w)

/-- The first failing condition of `CONVERT` (40_color_space_converter R87, 60_exceptions R164). -/
def convertFault (s : State) : Option Fault :=
  firstFault
    [cscRegisterFault s, factorFault s, bufferFault s (outWidth s * outHeight s),
     firstPixelFault (outWidth s) (outHeight s) (pixelIndexFault s),
     firstPixelFault (outWidth s) (outHeight s) (pixelByteFault s)]

/-- The first failing condition of a filter whose pixels read a neighbourhood of radius `r`
(41_point_filter_unit R100, 60_exceptions R164). -/
def filterFault (r : Nat) (s : State) : Option Fault :=
  firstFault
    [dimensionFault s, bufferFault s (inWidth s * inHeight s),
     (readOrder r (inWidth s) (inHeight s)).findSome? (wordFault s)]

end Sys2Proof.Machine
end

