-- ==== Sys2Proof/Machine/Converter.lean ====
section
/-! DEFINITION. The colour-space converter: `CONVERT` (40_color_space_converter R80 to R90). -/

namespace Sys2Proof.Machine

/-- The chroma offset of −128 (40_color_space_converter R83). -/
def chroma (b : Byte) : Int := byteInt b - 128

/-- `SR` (40_color_space_converter R85): scale 10^6, the whole sum. -/
def scaledRed (ys vs : Byte) : Int := 1000000 * byteInt ys + 1370705 * chroma vs

/-- `SG` (40_color_space_converter R85). -/
def scaledGreen (ys us vs : Byte) : Int :=
  1000000 * byteInt ys - 337633 * chroma us - 698001 * chroma vs

/-- `SB` (40_color_space_converter R85). -/
def scaledBlue (ys us : Byte) : Int := 1000000 * byteInt ys + 1732446 * chroma us

/-- One truncation toward zero of the whole sum, then the clamp (40_color_space_converter R85). -/
def channelOf (scaled : Int) : Byte := clamp8 (Int.tdiv scaled 1000000)

/-- The pixel of three samples (40_color_space_converter R84 to R86): opaque. -/
def colour (ys us vs : Byte) : Pixel :=
  pack opaqueAlpha (channelOf (scaledRed ys vs)) (channelOf (scaledGreen ys us vs))
    (channelOf (scaledBlue ys us))

/-- The pixel at destination `(dx, dy)`. -/
def convertPixel (s : State) (dx dy : Nat) : Pixel :=
  colour (byteAt s.py (lumaIndex s dx dy)) (byteAt s.pu (uIndex s dx dy))
    (byteAt s.pv (vIndex s dx dy))

/-- The state after `CONVERT` (40_color_space_converter R87): `FB0` is replaced as a whole, its
dimensions set; nothing else changes. -/
def convertResult (s : State) : State :=
  { s with
    fb0 := Memory.fill (outWidth s * outHeight s) fun i => convertPixel s (i % outWidth s) (i / outWidth s)
    fb0W := RegCell.set (BitVec.ofNat 32 (outWidth s))
    fb0H := RegCell.set (BitVec.ofNat 32 (outHeight s)) }

/-- `CONVERT` (40_color_space_converter R87); the mode is inert (30_encoding R66). -/
def execConvert (_mode : Nat) (s : State) : Host.Outcome State Fault Refusal :=
  finish (convertFault s) (convertResult s)

end Sys2Proof.Machine
end

