-- ==== Sys2Proof/Machine/PointFilter.lean ====
section
/-! DEFINITION. The frame shared by the six filters and the three filters without a kernel:
`FILT.NOOP`, `FILT.GRAY`, `FILT.EDGE` (41_point_filter_unit R100 to R108). -/

namespace Sys2Proof.Machine

/-- The state after a filter with output function `out` (41_point_filter_unit R100): `FB1` is replaced
as a whole, its dimensions are those of `FB0`; nothing else changes. -/
def filterResult (out : State → Nat → Nat → Pixel) (s : State) : State :=
  { s with
    fb1 := Memory.fill (inWidth s * inHeight s) fun i => out s (i % inWidth s) (i / inWidth s)
    fb1W := RegCell.set s.fb0W.val
    fb1H := RegCell.set s.fb0H.val }

/-- The frame of every filter command (41_point_filter_unit R100): `r` is how far a pixel's reads go. -/
def runFilter (r : Nat) (out : State → Nat → Nat → Pixel) (s : State) :
    Host.Outcome State Fault Refusal :=
  finish (filterFault r s) (filterResult out s)

/-- `out_NOOP` (41_point_filter_unit R101): the whole word, alpha included. -/
def outNoop (s : State) (x y : Nat) : Pixel := srcPixel s x y

/-- `out_GRAY` (41_point_filter_unit R103). -/
def outGray (s : State) (x y : Nat) : Pixel := grey (luma (srcPixel s x y))

/-- The grey map `g(x, y)` (41_point_filter_unit R104); scratch, local to the command (10_state R17). -/
def greyMap (s : State) (x y : Nat) : Int := byteInt (luma (srcPixel s x y))

/-- `gx(x, y)` (41_point_filter_unit R105). -/
def gradientX (g : Nat → Nat → Int) (x y : Nat) : Int :=
  - g (x - 1) (y - 1) + g (x + 1) (y - 1) - 2 * g (x - 1) y + 2 * g (x + 1) y
    - g (x - 1) (y + 1) + g (x + 1) (y + 1)

/-- `gy(x, y)` (41_point_filter_unit R105). -/
def gradientY (g : Nat → Nat → Int) (x y : Nat) : Int :=
  - g (x - 1) (y - 1) - 2 * g x (y - 1) - g (x + 1) (y - 1)
    + g (x - 1) (y + 1) + 2 * g x (y + 1) + g (x + 1) (y + 1)

/-- `m(x, y)` (41_point_filter_unit R105): the sum of absolute values, at most 255. -/
def magnitude (g : Nat → Nat → Int) (x y : Nat) : Byte :=
  BitVec.ofNat 8 (min ((gradientX g x y).natAbs + (gradientY g x y).natAbs) 255)

/-- `out_EDGE` (41_point_filter_unit R106, R107): the outermost ring is opaque black. -/
def outEdge (s : State) (x y : Nat) : Pixel :=
  if interior 1 (inWidth s) (inHeight s) x y then grey (magnitude (greyMap s) x y) else black

/-- `FILT.NOOP` (41_point_filter_unit R101). -/
def execFiltNoop (_mode : Nat) (s : State) : Host.Outcome State Fault Refusal :=
  runFilter 0 outNoop s

/-- `FILT.GRAY` (41_point_filter_unit R103). -/
def execFiltGray (_mode : Nat) (s : State) : Host.Outcome State Fault Refusal :=
  runFilter 0 outGray s

/-- `FILT.EDGE` (41_point_filter_unit R106). Which unwritten word it reports first follows 60_exceptions
R164 item 6, as for a kernel of radius 1 (DEDUCED, safe: log 15). -/
def execFiltEdge (_mode : Nat) (s : State) : Host.Outcome State Fault Refusal :=
  runFilter 1 outEdge s

end Sys2Proof.Machine
end

