-- ==== Sys2Proof/Machine/Convolution.lean ====
section
/-! DEFINITION. The convolution filter bank: `FILT.BLUR`, `FILT.SHARPEN`, `FILT.EMBOSS`
(42_convolution_filter_bank R120 to R132). -/

namespace Sys2Proof.Machine

/-- The sum over `0 .. n-1`. -/
def sumRange (n : Nat) (f : Nat → Int) : Int := ((List.range n).map f).sum

/-- `acc_c(x, y)` (42_convolution_filter_bank R131): exact; the weight `K[ky][kx]` meets the pixel at
offset `(kx − r, ky − r)`, no flip (R130). -/
def accumulate (k : Kernel) (channel : Pixel → Byte) (s : State) (x y : Nat) : Int :=
  sumRange k.size fun ky => sumRange k.size fun kx =>
    kernelWeight k ky kx *
      byteInt (channel (srcPixel s (x + kx - kernelRadius k) (y + ky - kernelRadius k)))

/-- `v_c(x, y)` (42_convolution_filter_bank R131): sum, divide toward zero, add the bias, clamp. -/
def convolved (k : Kernel) (channel : Pixel → Byte) (s : State) (x y : Nat) : Byte :=
  clamp8 (Int.tdiv (accumulate k channel s x y) k.divisor + k.bias)

/-- `out_CONV` (42_convolution_filter_bank R132): interior pixels computed and opaque, the border the
unchanged source word (R122). -/
def outConvolution (k : Kernel) (s : State) (x y : Nat) : Pixel :=
  if interior (kernelRadius k) (inWidth s) (inHeight s) x y then
    pack opaqueAlpha (convolved k red s x y) (convolved k green s x y) (convolved k blue s x y)
  else srcPixel s x y

/-- The command of a kernel: the frame of 41_point_filter_unit R100 with `out_CONV`. -/
def runConvolution (k : Kernel) (s : State) : Host.Outcome State Fault Refusal :=
  runFilter (kernelRadius k) (outConvolution k) s

/-- `FILT.BLUR` (42_convolution_filter_bank R126). -/
def execFiltBlur (_mode : Nat) (s : State) : Host.Outcome State Fault Refusal :=
  runConvolution blurKernel s

/-- `FILT.SHARPEN` (42_convolution_filter_bank R127). -/
def execFiltSharpen (_mode : Nat) (s : State) : Host.Outcome State Fault Refusal :=
  runConvolution sharpenKernel s

/-- `FILT.EMBOSS` (42_convolution_filter_bank R128). -/
def execFiltEmboss (_mode : Nat) (s : State) : Host.Outcome State Fault Refusal :=
  runConvolution embossKernel s

end Sys2Proof.Machine
end

