-- ==== Sys2Proof/Machine/Tracker.lean ====
section
/-! DEFINITION. The rolling-statistics accumulator: `TRK.RECORD`, `TRK.FRAMERATE`, `TRK.AVERAGE`,
`TRK.RESET` (43_rolling_statistics_accumulator R140 to R149). -/

namespace Sys2Proof.Machine

/-! ## The ring and its valid window (10_state R14, 43_rolling_statistics_accumulator R142) -/

/-- The contents of slot `k`. -/
def slotAt (t : Tracker) (k : Nat) : Slot := t.ring.getD k Slot.zero

/-- The slot of the `i`-th valid sample, oldest first: `(pos − fill + i) mod N`. -/
def validSlot (t : Tracker) (i : Nat) : Nat :=
  (((t.pos : Int) - (t.fill : Int) + (i : Int)) % (t.n : Int)).toNat

/-- The valid samples, oldest first: the abstract view `S` of 10_state R15. -/
def validSamples (t : Tracker) : List Slot :=
  (List.range t.fill).map fun i => slotAt t (validSlot t i)

/-- The oldest valid slot: `(pos − fill) mod N`. -/
def oldestSlot (t : Tracker) : Slot := slotAt t (((t.pos : Int) - (t.fill : Int)) % (t.n : Int)).toNat

/-- The newest valid slot: `(pos − 1) mod N`. -/
def newestSlot (t : Tracker) : Slot := slotAt t (((t.pos : Int) - 1) % (t.n : Int)).toNat

/-- Append one slot (43_rolling_statistics_accumulator R141): write at `pos`, advance `pos` modulo `N`,
count up to `N`. -/
def pushSlot (t : Tracker) (x : Slot) : Tracker :=
  { t with ring := t.ring.set t.pos x, pos := (t.pos + 1) % t.n, fill := min (t.fill + 1) t.n }

/-- The slot of the five samples and a capture time (43_rolling_statistics_accumulator R141). -/
def sampleSlot (s : State) (t : Dur) : Slot :=
  ⟨s.smp.d0.val, s.smp.d1.val, s.smp.d2.val, s.smp.d3.val, s.smp.d4.val, t⟩

/-! ## Results -/

/-- The state after `TRK.RECORD`: the answer of `TIME` is used up. -/
def recordResult (s : State) : State :=
  { s with trk := pushSlot s.trk (sampleSlot s (timeAnswer s)), timeNext := none, draws := s.draws + 1 }

/-- `RESULT` written with a value (10_state R11). -/
def writeResult (s : State) (d : Dur) : State := { s with result := RegCell.set d }

/-- The state after `TRK.FRAMERATE` (43_rolling_statistics_accumulator R143): 0 below two samples,
`(fill − 1) / e` for a positive elapsed time, and a FREE VALUE otherwise (R148; log 9). -/
def framerateResult (s : State) : State :=
  if s.trk.fill < 2 then writeResult s Dur.zero
  else if h : (oldestSlot s.trk).t.val < (newestSlot s.trk).t.val then
    writeResult s (durRate (s.trk.fill - 1) (oldestSlot s.trk).t (newestSlot s.trk).t h)
  else { writeResult s (unspecifiedRate s) with draws := s.draws + 1 }

/-- The state after `TRK.AVERAGE` of the field `d` (43_rolling_statistics_accumulator R144). -/
def averageResult (d : Slot → Dur) (s : State) : State :=
  if s.trk.fill = 0 then writeResult s Dur.zero
  else writeResult s (durMean ((validSamples s.trk).map d) s.trk.fill)

/-- The state after `TRK.RESET` (43_rolling_statistics_accumulator R145): no slot is valid. -/
def trackerResetResult (s : State) : State := { s with trk := { s.trk with fill := 0, pos := 0 } }

/-! ## The commands; the mode is inert (30_encoding R66) -/

/-- `TRK.RECORD` (43_rolling_statistics_accumulator R141). -/
def execTrkRecord (_mode : Nat) (s : State) : Host.Outcome State Fault Refusal :=
  finish (sampleFault s) (recordResult s)

/-- `TRK.FRAMERATE` (43_rolling_statistics_accumulator R143, R148). -/
def execTrkFramerate (_mode : Nat) (s : State) : Host.Outcome State Fault Refusal :=
  .next (framerateResult s)

/-- `TRK.AVERAGE CONV`: field 0, conversion stage (30_encoding R63). -/
def execTrkAverageConv (_mode : Nat) (s : State) : Host.Outcome State Fault Refusal :=
  .next (averageResult Slot.d0 s)

/-- `TRK.AVERAGE FILT`: field 1, filter stage (30_encoding R63). -/
def execTrkAverageFilt (_mode : Nat) (s : State) : Host.Outcome State Fault Refusal :=
  .next (averageResult Slot.d1 s)

/-- `TRK.AVERAGE COMP`: field 2, composition stage (30_encoding R63). -/
def execTrkAverageComp (_mode : Nat) (s : State) : Host.Outcome State Fault Refusal :=
  .next (averageResult Slot.d2 s)

/-- `TRK.AVERAGE TOTAL`: field 3, total processing (30_encoding R63). -/
def execTrkAverageTotal (_mode : Nat) (s : State) : Host.Outcome State Fault Refusal :=
  .next (averageResult Slot.d3 s)

/-- `TRK.AVERAGE E2E`: field 4, end-to-end (30_encoding R63). -/
def execTrkAverageE2e (_mode : Nat) (s : State) : Host.Outcome State Fault Refusal :=
  .next (averageResult Slot.d4 s)

/-- `TRK.RESET` (43_rolling_statistics_accumulator R145). -/
def execTrkReset (_mode : Nat) (s : State) : Host.Outcome State Fault Refusal :=
  .next (trackerResetResult s)

end Sys2Proof.Machine
end

