-- ==== Sys2Proof/Machine/Dispatch.lean ====
section
/-! DEFINITION. One arm per command. -/

namespace Sys2Proof.Machine

-- The meaning of every row of spec/opcode_table.json.
def exec (i : Instr) (s : State) : Host.Outcome State Fault Refusal :=
  match i with
  | .convert m => Sys2Proof.Machine.execConvert m s
  | .filtNoop m => Sys2Proof.Machine.execFiltNoop m s
  | .filtGray m => Sys2Proof.Machine.execFiltGray m s
  | .filtEdge m => Sys2Proof.Machine.execFiltEdge m s
  | .filtBlur m => Sys2Proof.Machine.execFiltBlur m s
  | .filtSharpen m => Sys2Proof.Machine.execFiltSharpen m s
  | .filtEmboss m => Sys2Proof.Machine.execFiltEmboss m s
  | .trkRecord m => Sys2Proof.Machine.execTrkRecord m s
  | .trkFramerate m => Sys2Proof.Machine.execTrkFramerate m s
  | .trkAverageConv m => Sys2Proof.Machine.execTrkAverageConv m s
  | .trkAverageFilt m => Sys2Proof.Machine.execTrkAverageFilt m s
  | .trkAverageComp m => Sys2Proof.Machine.execTrkAverageComp m s
  | .trkAverageTotal m => Sys2Proof.Machine.execTrkAverageTotal m s
  | .trkAverageE2e m => Sys2Proof.Machine.execTrkAverageE2e m s
  | .trkReset m => Sys2Proof.Machine.execTrkReset m s

end Sys2Proof.Machine
end

