-- ==== Sys2Proof/Machine/HostPort.lean ====
section
/-! DEFINITION. What a host action does (30_encoding R67, R69; 10_state R10, R11, R16; 20_memory R40,
R57; 60_exceptions R171). -/

namespace Sys2Proof.Machine

/-- Register numbers (20_memory R57); 20 and above do not exist. -/
def registerOf : Nat → Option RegName
  | 0 => some .cmd
  | 1 => some .cscW
  | 2 => some .cscH
  | 3 => some .cscF
  | 4 => some .yRs
  | 5 => some .yPs
  | 6 => some .uRs
  | 7 => some .uPs
  | 8 => some .vRs
  | 9 => some .vPs
  | 10 => some .fb0W
  | 11 => some .fb0H
  | 12 => some .fb1W
  | 13 => some .fb1H
  | 14 => some .sample0
  | 15 => some .sample1
  | 16 => some .sample2
  | 17 => some .sample3
  | 18 => some .sample4
  | 19 => some .result
  | _ => none

/-- A write to the command port: the CORE decodes the word and performs it at once (30_encoding R67); an
illegal word is `Fault(IllegalCommand)` (R65). -/
def issue (w : Word) (s : State) : Host.Outcome State Fault Refusal :=
  match decode w with
  | .instr i => exec i s
  | .illegal _ => .fault (.illegalCommand w)

/-- One `SAMPLE` register written. -/
def writeSample (s : State) (r : RegName) (d : Dur) : State :=
  match r with
  | .sample0 => { s with smp := { s.smp with d0 := RegCell.set d } }
  | .sample1 => { s with smp := { s.smp with d1 := RegCell.set d } }
  | .sample2 => { s with smp := { s.smp with d2 := RegCell.set d } }
  | .sample3 => { s with smp := { s.smp with d3 := RegCell.set d } }
  | .sample4 => { s with smp := { s.smp with d4 := RegCell.set d } }
  | _ => s

/-- `WR <reg>, <integer>`: a command (`CMD`), a word register, a `SAMPLE` register with an integer
literal (30_encoding R69), or a read-only register, which ignores it (10_state R11). -/
def writeWord (r : RegName) (v : Word) (s : State) : Host.Outcome State Fault Refusal :=
  match r with
  | .cmd => issue v s
  | .cscW => .next { s with csc := { s.csc with w := RegCell.set v } }
  | .cscH => .next { s with csc := { s.csc with h := RegCell.set v } }
  | .cscF => .next { s with csc := { s.csc with f := RegCell.set v } }
  | .yRs => .next { s with csc := { s.csc with yRs := RegCell.set v } }
  | .yPs => .next { s with csc := { s.csc with yPs := RegCell.set v } }
  | .uRs => .next { s with csc := { s.csc with uRs := RegCell.set v } }
  | .uPs => .next { s with csc := { s.csc with uPs := RegCell.set v } }
  | .vRs => .next { s with csc := { s.csc with vRs := RegCell.set v } }
  | .vPs => .next { s with csc := { s.csc with vPs := RegCell.set v } }
  | .fb0W => .next { s with fb0W := RegCell.set v }
  | .fb0H => .next { s with fb0H := RegCell.set v }
  | .fb1W => .next s
  | .fb1H => .next s
  | .sample0 => .next (writeSample s r (durOfNat v.toNat))
  | .sample1 => .next (writeSample s r (durOfNat v.toNat))
  | .sample2 => .next (writeSample s r (durOfNat v.toNat))
  | .sample3 => .next (writeSample s r (durOfNat v.toNat))
  | .sample4 => .next (writeSample s r (durOfNat v.toNat))
  | .result => .next s

/-- `WR <reg>, <fraction>`: a `SAMPLE` register takes it, a read-only register ignores it, and a register
that holds a 32-bit word has no form for it (DESIGN CHOICE, safe: log 14). -/
def writeDur (r : RegName) (d : Dur) (s : State) : Host.Outcome State Fault Refusal :=
  match r with
  | .sample0 => .next (writeSample s r d)
  | .sample1 => .next (writeSample s r d)
  | .sample2 => .next (writeSample s r d)
  | .sample3 => .next (writeSample s r d)
  | .sample4 => .next (writeSample s r d)
  | .fb1W => .next s
  | .fb1H => .next s
  | .result => .next s
  | .cmd => .refused (.durToWordRegister .cmd)
  | .cscW => .refused (.durToWordRegister .cscW)
  | .cscH => .refused (.durToWordRegister .cscH)
  | .cscF => .refused (.durToWordRegister .cscF)
  | .yRs => .refused (.durToWordRegister .yRs)
  | .yPs => .refused (.durToWordRegister .yPs)
  | .uRs => .refused (.durToWordRegister .uRs)
  | .uPs => .refused (.durToWordRegister .uPs)
  | .vRs => .refused (.durToWordRegister .vRs)
  | .vPs => .refused (.durToWordRegister .vPs)
  | .fb0W => .refused (.durToWordRegister .fb0W)
  | .fb0H => .refused (.durToWordRegister .fb0H)

/-- A host read of a cell: refused where it is unspecified (60_exceptions R171). -/
def readCell {α : Type} (c : RegCell α) (r : RegName) (form : α → Observed) (s : State) :
    Host.Outcome State Fault Refusal :=
  if c.written then .next (observe s (form c.val)) else .refused (.unspecifiedRead (.reg r))

/-- `RD <reg>` (10_state R11 column "host access"); a read of `CMD` is refused. -/
def readRegister (r : RegName) (s : State) : Host.Outcome State Fault Refusal :=
  match r with
  | .cmd => .refused .readOfCmd
  | .cscW => readCell s.csc.w r .word s
  | .cscH => readCell s.csc.h r .word s
  | .cscF => readCell s.csc.f r .word s
  | .yRs => readCell s.csc.yRs r .word s
  | .yPs => readCell s.csc.yPs r .word s
  | .uRs => readCell s.csc.uRs r .word s
  | .uPs => readCell s.csc.uPs r .word s
  | .vRs => readCell s.csc.vRs r .word s
  | .vPs => readCell s.csc.vPs r .word s
  | .fb0W => readCell s.fb0W r .word s
  | .fb0H => readCell s.fb0H r .word s
  | .fb1W => readCell s.fb1W r .word s
  | .fb1H => readCell s.fb1H r .word s
  | .sample0 => readCell s.smp.d0 r .dur s
  | .sample1 => readCell s.smp.d1 r .dur s
  | .sample2 => readCell s.smp.d2 r .dur s
  | .sample3 => readCell s.smp.d3 r .dur s
  | .sample4 => readCell s.smp.d4 r .dur s
  | .result => readCell s.result r .dur s

/-- `ST <plane>[<i>], <value>`. -/
def hostStoreByte (p : Plane) (i : Nat) (v : Byte) (s : State) : Host.Outcome State Fault Refusal :=
  if i < planeCapacity s p then .next (storeByte s p i v) else .refused (.beyondCapacity (.byte p i))

/-- `ST <buffer>[<i>], <value>`: the space `FB1` has no host write port (60_exceptions R171). -/
def hostStoreWord (b : Buffer) (i : Nat) (v : Pixel) (s : State) :
    Host.Outcome State Fault Refusal :=
  match b with
  | .fb0 =>
    if i < s.cap.fbWords then .next { s with fb0 := Memory.write s.fb0 i v }
    else .refused (.beyondCapacity (.word .fb0 i))
  | .fb1 => .refused .writeToFb1

/-- `LD <plane>[<i>]`. -/
def hostLoadByte (p : Plane) (i : Nat) (s : State) : Host.Outcome State Fault Refusal :=
  if i < planeCapacity s p then
    match Memory.read (plane s p) i with
    | some v => .next (observe s (.byte v))
    | none => .refused (.unspecifiedRead (.byte p i))
  else .refused (.beyondCapacity (.byte p i))

/-- `LD <buffer>[<i>]`. -/
def hostLoadWord (b : Buffer) (i : Nat) (s : State) : Host.Outcome State Fault Refusal :=
  if i < s.cap.fbWords then
    match Memory.read (buffer s b) i with
    | some v => .next (observe s (.pixel v))
    | none => .refused (.unspecifiedRead (.word b i))
  else .refused (.beyondCapacity (.word b i))

/-- The effect of one host action on everything but the host's position (30_encoding R69). A second `TIME`
before the next `TRK.RECORD` replaces the answer that the first has fixed (DESIGN CHOICE: log 26). -/
def perform (a : HostAction) (s : State) : Host.Outcome State Fault Refusal :=
  match a with
  | .wr n v =>
    match registerOf n with
    | some r => writeWord r v s
    | none => .refused (.noSuchRegister n)
  | .wrDur n d =>
    match registerOf n with
    | some r => writeDur r d s
    | none => .refused (.noSuchRegister n)
  | .rd n =>
    match registerOf n with
    | some r => readRegister r s
    | none => .refused (.noSuchRegister n)
  | .stByte p i v => hostStoreByte p i v s
  | .stWord b i v => hostStoreWord b i v s
  | .ldByte p i => hostLoadByte p i s
  | .ldWord b i => hostLoadWord b i s
  | .time t => .next { s with timeNext := some t }
  | .reset => .next (hardwareReset s)

/-- An action that ends in a next state is done: the host moves on (10_state R12). -/
def thenAdvance (o : Host.Outcome State Fault Refusal) : Host.Outcome State Fault Refusal :=
  match o with
  | .next t => .next (advanceHost t)
  | .fault f => .fault f
  | .refused r => .refused r

/-- One step of host and CORE. With nothing to do the CORE idles (60_exceptions R172). With a fault
recorded no action has a meaning but the hardware reset (60_exceptions R166, 93_implementation_defined
U8), and that only at the head of the list: the faulting action stays there (DESIGN CHOICE: log 27). -/
def hostStep (s : State) : Host.Outcome State Fault Refusal :=
  match s.host.todo with
  | [] =>
    match s.faultMark with
    | some f => .fault f
    | none => .next s
  | .reset :: _ => thenAdvance (perform .reset s)
  | a :: _ =>
    match s.faultMark with
    | some f => .fault f
    | none => thenAdvance (perform a s)

/-- The state in which a step leaves the machine, a fault included: a faulting step changes nothing but
the fault mark (60_exceptions R165). So the host does not move past the faulting action: it stays at the
head of the list, before a reset that stands behind it (DESIGN CHOICE: log 27). -/
def stateAfter (s : State) (o : Host.Outcome State Fault Refusal) : State :=
  match o with
  | .next t => t
  | .fault f => recordFault s f
  | .refused _ => s

end Sys2Proof.Machine
end

