-- ==== Sys2Proof/Machine/Step.lean ====
section
/-! DEFINITION. One step of the machine, and placing a command where the next step takes it. -/

namespace Sys2Proof.Machine

/-- One step: the host's next action, complete before the next (20_memory R50, R51). -/
def step (s : State) : Host.Outcome State Fault Refusal := Sys2Proof.Machine.hostStep s

/-- The state whose very next step writes the command word to `CMD`: that action is put at the head of
the host's list. A recorded fault, after which nothing runs, is taken away (log 17). -/
def State.withFetchWord (s : State) (nbits w : Nat) : State :=
  { s with
    faultMark := none
    host := { s.host with todo := .wr 0 (BitVec.ofNat 32 (w % 2 ^ nbits)) :: s.host.todo } }

end Sys2Proof.Machine
end

