-- ==== Sys2Proof/Machine/Assembler.lean ====
section
/-! DEFINITION. The spec's assembler syntax and its pseudo-instructions (30_encoding R64, R68, R70), for
writing host programs. Nothing in the machine reads it. -/

namespace Sys2Proof.Machine

/-- The mnemonic of 30_encoding R68, with the field operand of `TRK.AVERAGE`. -/
def mnemonic : Instr → String
  | .convert _ => "CONVERT"
  | .filtNoop _ => "FILT.NOOP"
  | .filtGray _ => "FILT.GRAY"
  | .filtEdge _ => "FILT.EDGE"
  | .filtBlur _ => "FILT.BLUR"
  | .filtSharpen _ => "FILT.SHARPEN"
  | .filtEmboss _ => "FILT.EMBOSS"
  | .trkRecord _ => "TRK.RECORD"
  | .trkFramerate _ => "TRK.FRAMERATE"
  | .trkAverageConv _ => "TRK.AVERAGE CONV"
  | .trkAverageFilt _ => "TRK.AVERAGE FILT"
  | .trkAverageComp _ => "TRK.AVERAGE COMP"
  | .trkAverageTotal _ => "TRK.AVERAGE TOTAL"
  | .trkAverageE2e _ => "TRK.AVERAGE E2E"
  | .trkReset _ => "TRK.RESET"

/-- The second spelling of `TRK.AVERAGE`, its field as a number 0 to 4 (30_encoding R68). -/
def numberedMnemonic : Instr → List String
  | .trkAverageConv _ => ["TRK.AVERAGE 0"]
  | .trkAverageFilt _ => ["TRK.AVERAGE 1"]
  | .trkAverageComp _ => ["TRK.AVERAGE 2"]
  | .trkAverageTotal _ => ["TRK.AVERAGE 3"]
  | .trkAverageE2e _ => ["TRK.AVERAGE 4"]
  | .convert _ => []
  | .filtNoop _ => []
  | .filtGray _ => []
  | .filtEdge _ => []
  | .filtBlur _ => []
  | .filtSharpen _ => []
  | .filtEmboss _ => []
  | .trkRecord _ => []
  | .trkFramerate _ => []
  | .trkReset _ => []

/-- The suffix `, m<k>`; absent for `MODE = 0` (30_encoding R68). -/
def modeSuffix (k : Nat) : String := if k = 0 then "" else ", m" ++ toString k

/-- The source line of a command. -/
def sourceLine (i : Instr) : String := mnemonic i ++ modeSuffix i.mode

/-- The fifteen rows at one mode. -/
def rowsAt (k : Nat) : List Instr :=
  [.convert k, .filtNoop k, .filtGray k, .filtEdge k, .filtBlur k, .filtSharpen k, .filtEmboss k,
   .trkRecord k, .trkFramerate k, .trkAverageConv k, .trkAverageFilt k, .trkAverageComp k,
   .trkAverageTotal k, .trkAverageE2e k, .trkReset k]

/-- The sixty commands that have a word (30_encoding R65). -/
def allCommands : List Instr := (List.range 4).flatMap rowsAt

/-- The lines of a command (30_encoding R68): its field by name or by number, and `MODE = 0` written out or
not. -/
def sourceLines (i : Instr) : List String :=
  (mnemonic i :: numberedMnemonic i).flatMap fun m =>
    [m ++ modeSuffix i.mode, m ++ ", m" ++ toString i.mode]

/-- Assemble one source line, its comment taken off, to its word: the line is looked up among those of the
sixty commands (30_encoding R68). -/
def assemble (line : String) : Option Word :=
  (allCommands.find? fun i => (sourceLines i).contains line).map encode

/-- The host action of a command: a write of its word to `CMD` (30_encoding R69). -/
def commandAction (i : Instr) : HostAction := .wr 0 (encode i)

/-- `CMD <w>`. -/
def pseudoCmd (w : Word) : List HostAction := [.wr 0 w]

/-- The filter command whose selection code is `n` (30_encoding R64); none for `n ≥ 6`. -/
def filterOf (n mode : Nat) : Option Instr :=
  match n with
  | 0 => some (.filtNoop mode)
  | 1 => some (.filtGray mode)
  | 2 => some (.filtEdge mode)
  | 3 => some (.filtBlur mode)
  | 4 => some (.filtSharpen mode)
  | 5 => some (.filtEmboss mode)
  | _ => none

/-- The cyclic successor of a selection in the listed order (30_encoding R64); for a host that steps the
selection, which the CORE does not. -/
def nextSelection (n : Nat) : Nat := (n + 1) % 6

/-- `FILT <n>`, `n` in 0..5 (30_encoding R70). For any other `n`, to which R70 gives no form, it expands to
no action (DESIGN CHOICE: log 28). -/
def pseudoFilt (n : Nat) : List HostAction := ((filterOf n 0).map commandAction).toList

/-- `PIPE <n>`, `n` in 0..5 (30_encoding R70). For any other `n`, to which R70 gives no form, it expands to
`CONVERT` alone (DESIGN CHOICE: log 28). -/
def pseudoPipe (n : Nat) : List HostAction := commandAction (.convert 0) :: pseudoFilt n

/-- `TRK.RECORD d0, d1, d2, d3, d4`. -/
def pseudoRecord (d0 d1 d2 d3 d4 : Dur) : List HostAction :=
  [.wrDur 14 d0, .wrDur 15 d1, .wrDur 16 d2, .wrDur 17 d3, .wrDur 18 d4, commandAction (.trkRecord 0)]

/-- `PLANES w, h, f, yrs, yps, urs, ups, vrs, vps`. -/
def pseudoPlanes (w h f yrs yps urs ups vrs vps : Word) : List HostAction :=
  [.wr 1 w, .wr 2 h, .wr 3 f, .wr 4 yrs, .wr 5 yps, .wr 6 urs, .wr 7 ups, .wr 8 vrs, .wr 9 vps]

/-- `DIMS w, h`. -/
def pseudoDims (w h : Word) : List HostAction := [.wr 10 w, .wr 11 h]

/-- `ST <plane>[<i>..], v0 v1 …`: consecutive indices (30_encoding R69). That it stands for one host action
per unit, each a position of its own in the list, is the model's reading (DESIGN CHOICE: log 25). -/
def storeBytes (p : Plane) (i : Nat) : List Byte → List HostAction
  | [] => []
  | v :: l => .stByte p i v :: storeBytes p (i + 1) l

/-- `ST FB0[<i>..], v0 v1 …`: consecutive indices (30_encoding R69), one host action per unit as for a plane
(DESIGN CHOICE: log 25). -/
def storeWords (i : Nat) : List Pixel → List HostAction
  | [] => []
  | v :: l => .stWord .fb0 i v :: storeWords (i + 1) l

end Sys2Proof.Machine
end

