-- ==== Sys2Proof/Safety.lean ====
section
/-! DEFINITION. What claims are stated in: when a command's preconditions hold, what a safe step is, and
the invariants of the machine. -/

namespace Sys2Proof.Machine

/-! ## Preconditions (70_reset_and_hazards R184, R187; 40_color_space_converter R88) -/

/-- The nine operand registers of `CONVERT` hold a value. -/
def cscWritten (s : State) : Bool :=
  s.csc.w.written && s.csc.h.written && s.csc.f.written && s.csc.yRs.written && s.csc.yPs.written &&
    s.csc.uRs.written && s.csc.uPs.written && s.csc.vRs.written && s.csc.vPs.written

/-- `FB0_W` and `FB0_H` hold a value. -/
def dimensionsWritten (s : State) : Bool := s.fb0W.written && s.fb0H.written

/-- `SAMPLE0` to `SAMPLE4` hold a value. -/
def samplesWritten (s : State) : Bool :=
  s.smp.d0.written && s.smp.d1.written && s.smp.d2.written && s.smp.d3.written && s.smp.d4.written

/-- The three sample indices of a destination pixel are inside their planes. -/
abbrev IndicesInRange (s : State) (dx dy : Nat) : Prop :=
  lumaIndex s dx dy < s.cap.planeY ∧ uIndex s dx dy < s.cap.planeU ∧ vIndex s dx dy < s.cap.planeV

/-- The three samples of a destination pixel are written. -/
abbrev SamplesPresent (s : State) (dx dy : Nat) : Prop :=
  (Memory.read s.py (lumaIndex s dx dy)).isSome = true ∧
    (Memory.read s.pu (uIndex s dx dy)).isSome = true ∧
      (Memory.read s.pv (vIndex s dx dy)).isSome = true

/-- The preconditions of `CONVERT` (40_color_space_converter R88). -/
abbrev ConvertReady (s : State) : Prop :=
  cscWritten s = true ∧ 1 ≤ factor s ∧ outWidth s * outHeight s ≤ s.cap.fbWords ∧
    ∀ dy < outHeight s, ∀ dx < outWidth s, IndicesInRange s dx dy ∧ SamplesPresent s dx dy

/-- The preconditions of every filter (70_reset_and_hazards R184). -/
abbrev FilterReady (s : State) : Prop :=
  dimensionsWritten s = true ∧ inWidth s * inHeight s ≤ s.cap.fbWords ∧
    ∀ i < inWidth s * inHeight s, (Memory.read s.fb0 i).isSome = true

/-- A safe step: it answers a next state. -/
def safeStep (s : State) : Bool :=
  match step s with
  | .next _ => true
  | .fault _ => false
  | .refused _ => false

/-! ## Invariants -/

/-- Every memory space is in its canonical form. -/
def memoryCanonical (s : State) : Bool :=
  Memory.wf s.py && Memory.wf s.pu && Memory.wf s.pv && Memory.wf s.fb0 && Memory.wf s.fb1

/-- No space holds a location at or beyond its capacity (20_memory R40). -/
def memoryInRange (s : State) : Bool :=
  Memory.below s.cap.planeY s.py && Memory.below s.cap.planeU s.pu && Memory.below s.cap.planeV s.pv &&
    Memory.below s.cap.fbWords s.fb0 && Memory.below s.cap.fbWords s.fb1

/-- The tracker's invariant (10_state R14), with `N ≥ 1` slots. -/
abbrev TrackerInvariant (t : Tracker) : Prop :=
  1 ≤ t.n ∧ t.ring.length = t.n ∧ t.fill ≤ t.n ∧ t.pos < t.n ∧ (t.fill < t.n → t.pos = t.fill)

/-- `FB1` holds exactly the packed buffer of its dimension registers, every word of it written
(20_memory R42, R43, R55). -/
abbrev OutputPopulated (s : State) : Prop :=
  s.fb1.map Prod.fst = List.range (s.fb1W.val.toNat * s.fb1H.val.toNat)

end Sys2Proof.Machine
end

