-- ==== Sys2Proof/Certificates/Slice0/Obligations.lean ====
section
/-! DEFINITION. The statements about the CORE, each from the rules of spec/ that its docstring cites. -/

open Sys2Proof Sys2Proof.Machine

/-! ## Encoding -/

/-- 30_encoding R61: a word selects the row whose match equals `w & 0xFFFFCFFF`; every other word is
illegal. The mode is bits 13 to 12 (R60). -/
def Obligations.WordSelectsItsRow : Prop :=
  ∀ w : Word,
    (w &&& 0xFFFFCFFF#32 = 0x00000001#32 → decode w = .instr (.convert (w.extractLsb' 12 2).toNat)) ∧
    (w &&& 0xFFFFCFFF#32 = 0x00000010#32 → decode w = .instr (.filtNoop (w.extractLsb' 12 2).toNat)) ∧
    (w &&& 0xFFFFCFFF#32 = 0x00000011#32 → decode w = .instr (.filtGray (w.extractLsb' 12 2).toNat)) ∧
    (w &&& 0xFFFFCFFF#32 = 0x00000012#32 → decode w = .instr (.filtEdge (w.extractLsb' 12 2).toNat)) ∧
    (w &&& 0xFFFFCFFF#32 = 0x00000013#32 → decode w = .instr (.filtBlur (w.extractLsb' 12 2).toNat)) ∧
    (w &&& 0xFFFFCFFF#32 = 0x00000014#32 → decode w = .instr (.filtSharpen (w.extractLsb' 12 2).toNat)) ∧
    (w &&& 0xFFFFCFFF#32 = 0x00000015#32 → decode w = .instr (.filtEmboss (w.extractLsb' 12 2).toNat)) ∧
    (w &&& 0xFFFFCFFF#32 = 0x00000020#32 → decode w = .instr (.trkRecord (w.extractLsb' 12 2).toNat)) ∧
    (w &&& 0xFFFFCFFF#32 = 0x00000021#32 → decode w = .instr (.trkFramerate (w.extractLsb' 12 2).toNat)) ∧
    (w &&& 0xFFFFCFFF#32 = 0x00000022#32 → decode w = .instr (.trkAverageConv (w.extractLsb' 12 2).toNat)) ∧
    (w &&& 0xFFFFCFFF#32 = 0x00000122#32 → decode w = .instr (.trkAverageFilt (w.extractLsb' 12 2).toNat)) ∧
    (w &&& 0xFFFFCFFF#32 = 0x00000222#32 → decode w = .instr (.trkAverageComp (w.extractLsb' 12 2).toNat)) ∧
    (w &&& 0xFFFFCFFF#32 = 0x00000322#32 → decode w = .instr (.trkAverageTotal (w.extractLsb' 12 2).toNat)) ∧
    (w &&& 0xFFFFCFFF#32 = 0x00000422#32 → decode w = .instr (.trkAverageE2e (w.extractLsb' 12 2).toNat)) ∧
    (w &&& 0xFFFFCFFF#32 = 0x00000023#32 → decode w = .instr (.trkReset (w.extractLsb' 12 2).toNat)) ∧
    (w &&& 0xFFFFCFFF#32 ∉
      [0x00000001#32, 0x00000010#32, 0x00000011#32, 0x00000012#32, 0x00000013#32, 0x00000014#32,
       0x00000015#32, 0x00000020#32, 0x00000021#32, 0x00000022#32, 0x00000122#32, 0x00000222#32,
       0x00000322#32, 0x00000422#32, 0x00000023#32] → ∀ i, decode w ≠ .instr i)

/-- A few words written out from the encoding tables of 30_encoding decode to what they stand for (the
words of 95_test_vectors section 2.1). -/
def Obligations.SpecWordsDecode : Prop :=
  decode 0x00000001#32 = .instr (.convert 0) ∧
  decode 0x00001011#32 = .instr (.filtGray 1) ∧
  decode 0x00003015#32 = .instr (.filtEmboss 3) ∧
  decode 0x00000020#32 = .instr (.trkRecord 0) ∧
  decode 0x00003422#32 = .instr (.trkAverageE2e 3) ∧
  decode 0x00000000#32 = .illegal .function ∧
  decode 0x00000522#32 = .illegal .argument ∧
  decode 0x00000030#32 = .illegal .unit ∧
  decode 0x80000001#32 = .illegal .reservedBit

/-- Decoding the word of a well-formed command gives it back: no bit of the encoding is dropped. -/
def Obligations.DecodeEncodeAgree : Prop :=
  ∀ i : Instr, WellFormed i → decode (encode i) = .instr i

/-- Each legal word has one meaning and is the word of that meaning: what decodes is well-formed and
encodes back to the same 32 bits. -/
def Obligations.EncodeDecodeAgree : Prop :=
  ∀ (w : Word) (i : Instr), decode w = .instr i → WellFormed i ∧ encode i = w

/-- 30_encoding R66: a command word with `MODE = m` has exactly the effect of the word with any other
mode: same next state, same faults. -/
def Obligations.ModeIsInert : Prop :=
  ∀ (w : Word) (m : Nat) (s : State), m < 4 → (∃ i, decode w = .instr i) →
    issue ((w &&& 0xFFFFCFFF#32) ||| (BitVec.ofNat 32 m <<< 12)) s = issue w s

/-- 30_encoding R65: an illegal word written to `CMD` is `Fault(IllegalCommand)`, recording the word,
and no other state of the CORE changes. THE MODEL'S CHOICE in it (log 27): the faulting action stays at the
head of the host's list, and the index stays. -/
def Obligations.IllegalWordFaults : Prop :=
  ∀ (s : State) (w : Word) (rest : List HostAction), s.faultMark = none →
    s.host.todo = .wr 0 w :: rest →
    w &&& 0xFFFFCFFF#32 ∉
      [0x00000001#32, 0x00000010#32, 0x00000011#32, 0x00000012#32, 0x00000013#32, 0x00000014#32,
       0x00000015#32, 0x00000020#32, 0x00000021#32, 0x00000022#32, 0x00000122#32, 0x00000222#32,
       0x00000322#32, 0x00000422#32, 0x00000023#32] →
    step s = .fault (.illegalCommand w) ∧
      stateAfter s (step s) = { s with faultMark := some (.illegalCommand w) }

/-! ## The step -/

/-- A step whose action writes to `CMD` a word that decodes to `i` is `exec i`, and the host has moved on
by one action; nothing else is added. -/
def Obligations.StepRunsDecodedCommand : Prop :=
  ∀ (s : State) (w : Word) (i : Instr) (rest : List HostAction), s.faultMark = none →
    s.host.todo = .wr 0 w :: rest → decode w = .instr i →
    step s =
      match exec i s with
      | .next t => .next { t with host := ⟨rest, s.host.index + 1, s.host.seen⟩ }
      | .fault f => .fault f
      | .refused r => .refused r

/-- 10_state R12: an action that ends in a next state leaves the head of the host's list and advances the
index by exactly 1; from reset it starts at 0 with nothing to do. THE MODEL'S CHOICE in it: `TIME`, no host
action by 30_encoding R69, counts as one too (log 23); the list is held in State (log 11). -/
def Obligations.HostPositionAdvances : Prop :=
  (∀ (s t : State) (a : HostAction) (rest : List HostAction), s.host.todo = a :: rest → step s = .next t →
    t.host.todo = rest ∧ t.host.index = s.host.index + 1) ∧
  State.reset.host.index = 0 ∧ State.reset.host.todo = []

/-- Between commands the CORE is idle and all state survives (60_exceptions R172, 70_reset R180). THE MODEL'S
CHOICE in it (log 11): a machine whose list is exhausted, where R189 of 70_reset ends the run, still takes a
step, and it answers the same state. -/
def Obligations.IdleStepChangesNothing : Prop :=
  ∀ s : State, s.host.todo = [] → s.faultMark = none → step s = .next s

/-- 60_exceptions R165: a faulting step changes nothing but the fault mark, which takes the first fault
only. THE MODEL'S CHOICE (log 13, log 27): the faulting action stays at the head of the host's list, and the
"stuck" of 93_implementation_defined U8 is that a marked state answers the same fault again. -/
def Obligations.FaultChangesOnlyTheMark : Prop :=
  ∀ (s : State) (f : Fault), step s = .fault f →
    (s.faultMark = none →
      stateAfter s (step s) = { s with faultMark := some f } ∧
        step (stateAfter s (step s)) = .fault f) ∧
    (∀ g, s.faultMark = some g → f = g ∧ stateAfter s (step s) = s)

/-- A next state never carries a fault: from a recorded fault only the hardware reset leads on, and it
clears the mark (10_state R20, 60_exceptions R166). -/
def Obligations.NextStateCarriesNoFault : Prop :=
  ∀ s t : State, step s = .next t →
    t.faultMark = none ∧ (s.faultMark ≠ none → s.host.todo.head? = some .reset)

/-- 70_reset R181: no step changes the ring capacity, hardware reset and `TRK.RESET` included; nor the
capacities of the memory spaces. -/
def Obligations.CapacityNeverChanges : Prop :=
  ∀ s t : State, step s = .next t → t.trk.n = s.trk.n ∧ t.cap = s.cap

/-! ## Reset -/

/-- 10_state R22: after reset, every written mark is clear, the tracker is empty with `N` the construction
parameter's default, every memory location is unspecified and the fault mark is empty. This is the state
`State.unmarked`, the reset state to the letter of R22; how `State.reset` differs says the next statement. -/
def Obligations.ResetToTheLetter : Prop :=
  let s := State.unmarked
  (s.csc.w.written = false ∧ s.csc.h.written = false ∧ s.csc.f.written = false ∧
    s.csc.yRs.written = false ∧ s.csc.yPs.written = false ∧ s.csc.uRs.written = false ∧
    s.csc.uPs.written = false ∧ s.csc.vRs.written = false ∧ s.csc.vPs.written = false) ∧
  (s.smp.d0.written = false ∧ s.smp.d1.written = false ∧ s.smp.d2.written = false ∧
    s.smp.d3.written = false ∧ s.smp.d4.written = false) ∧
  (s.fb0W.written = false ∧ s.fb0H.written = false ∧ s.fb1W.written = false ∧
    s.fb1H.written = false ∧ s.result.written = false) ∧
  s.trk.fill = 0 ∧ s.trk.pos = 0 ∧ validSamples s.trk = [] ∧ s.trk.n = 30 ∧
  (∀ p i, Memory.read (plane s p) i = none) ∧ (∀ b i, Memory.read (buffer s b) i = none) ∧
  s.faultMark = none

/-- THE MODEL'S CHOICE (log 1, log 2): `State.reset` is that state with every register written, at 0 but for
`CSC_F` at 1, and nothing else. Tracker, memories and fault mark are as 10_state R22 says. -/
def Obligations.ResetHoldsEveryRegister : Prop :=
  let s := State.reset
  s = { State.unmarked with
    csc := ⟨⟨0, true⟩, ⟨0, true⟩, ⟨1, true⟩, ⟨0, true⟩, ⟨0, true⟩, ⟨0, true⟩, ⟨0, true⟩, ⟨0, true⟩, ⟨0, true⟩⟩
    fb0W := ⟨0, true⟩, fb0H := ⟨0, true⟩, fb1W := ⟨0, true⟩, fb1H := ⟨0, true⟩
    smp := ⟨⟨durOfNat 0, true⟩, ⟨durOfNat 0, true⟩, ⟨durOfNat 0, true⟩, ⟨durOfNat 0, true⟩, ⟨durOfNat 0, true⟩⟩
    result := ⟨durOfNat 0, true⟩ } ∧
  cscWritten s = true ∧ dimensionsWritten s = true ∧ samplesWritten s = true ∧
  s.trk.fill = 0 ∧ s.trk.pos = 0 ∧ s.faultMark = none ∧
  (∀ p i, Memory.read (plane s p) i = none) ∧ (∀ b i, Memory.read (buffer s b) i = none)

/-- THE MODEL'S CHOICE of reset values (log 1, log 2): from reset every command runs as the first. -/
def Obligations.EveryCommandRunsFromReset : Prop :=
  ∀ i : Instr, WellFormed i →
    ∃ t, step (State.reset.withFetchWord 32 (encode i).toNat) = .next t ∧ t.host.todo = []

/-- The hardware reset (70_reset R180, R182; 60_exceptions R166) from any state, a recorded fault
included: tracker empty, memories unspecified, mark clear, capacities kept. THE MODEL'S CHOICE in it (log 1,
log 2, log 12): every register takes its value in `State.reset`, and the agents outside the CORE, the host,
the time source and the count of draws, stay. -/
def Obligations.HardwareResetConstructsAnew : Prop :=
  ∀ (s : State) (rest : List HostAction), s.host.todo = .reset :: rest →
    ∃ t, step s = .next t ∧ t.faultMark = none ∧ t.trk.fill = 0 ∧ t.trk.pos = 0 ∧
      validSamples t.trk = [] ∧ t.trk.n = s.trk.n ∧ t.cap = s.cap ∧
      (∀ p i, Memory.read (plane t p) i = none) ∧ (∀ b i, Memory.read (buffer t b) i = none) ∧
      t.host = ⟨rest, s.host.index + 1, s.host.seen⟩ ∧
      t = { State.reset with
        trk := ⟨s.trk.n, 0, 0, t.trk.ring⟩, cap := s.cap, timeNext := s.timeNext, draws := s.draws,
        host := ⟨rest, s.host.index + 1, s.host.seen⟩ }

/-! ## Pixels -/

/-- 20_memory R46: `A = p[31:24]`, `R = p[23:16]`, `G = p[15:8]`, `B = p[7:0]`, packing puts each channel
there, fully opaque is `0xFF`, opaque black is `0xFF000000`. -/
def Obligations.ChannelPositions : Prop :=
  (∀ p : Pixel, (alpha p).toNat = p.toNat / 2 ^ 24 ∧ (red p).toNat = p.toNat / 2 ^ 16 % 256 ∧
    (green p).toNat = p.toNat / 2 ^ 8 % 256 ∧ (blue p).toNat = p.toNat % 256) ∧
  (∀ a r g b : Byte, (pack a r g b).toNat = a.toNat * 2 ^ 24 + r.toNat * 2 ^ 16 + g.toNat * 2 ^ 8 + b.toNat) ∧
  (∀ a r g b : Byte, alpha (pack a r g b) = a ∧ red (pack a r g b) = r ∧ green (pack a r g b) = g ∧
    blue (pack a r g b) = b) ∧
  opaqueAlpha = 0xFF#8 ∧ black = 0xFF000000#32

/-- The two reductions used by every channel: `clamp8` (00_scope section 4.2), and the luma of
41_point_filter_unit R102 as an exact number that needs no clamp; the luma of a grey is its value. -/
def Obligations.ChannelReductions : Prop :=
  (∀ v : Int, (v < 0 → clamp8 v = 0#8) ∧ (255 < v → clamp8 v = 255#8) ∧
    (0 ≤ v → v ≤ 255 → ((clamp8 v).toNat : Int) = v)) ∧
  (∀ p : Pixel, (luma p).toNat =
    (77 * (red p).toNat + 150 * (green p).toNat + 29 * (blue p).toNat) / 256) ∧
  (∀ v : Byte, luma (grey v) = v)

/-- 42_convolution_filter_bank R131 and 40_color_space_converter section 1.1 fact 1: the direction of
"integer truncation" is not observable, in the converter and in Blur. -/
def Obligations.TruncationDirectionUnobservable : Prop :=
  (∀ v : Int, channelOf v = clamp8 (Int.fdiv v 1000000)) ∧
  (∀ (c : Pixel → Byte) (s : State) (x y : Nat),
    convolved blurKernel c s x y = clamp8 (Int.fdiv (accumulate blurKernel c s x y) 256 + 0))

/-! ## CONVERT -/

/-- 40_color_space_converter R80 to R83, R85, R86: with its preconditions (R88) `CONVERT` answers a next
state with the truncated dimensions and every output pixel computed from the samples at the source
coordinates; the words beyond are unspecified. -/
def Obligations.ConvertResult : Prop :=
  ∀ (m : Nat) (s : State), ConvertReady s → ∃ t, exec (.convert m) s = .next t ∧
    let f := s.csc.f.val.toNat
    let dw := s.csc.w.val.toNat / f
    let dh := s.csc.h.val.toNat / f
    t.fb0W.written = true ∧ t.fb0W.val.toNat = dw ∧ t.fb0H.written = true ∧ t.fb0H.val.toNat = dh ∧
    (∀ dx dy, dx < dw → dy < dh → ∀ ys us vs : Byte,
      Memory.read s.py (dy * f * s.csc.yRs.val.toNat + dx * f * s.csc.yPs.val.toNat) = some ys →
      Memory.read s.pu (dy * f / 2 * s.csc.uRs.val.toNat + dx * f / 2 * s.csc.uPs.val.toNat) = some us →
      Memory.read s.pv (dy * f / 2 * s.csc.vRs.val.toNat + dx * f / 2 * s.csc.vPs.val.toNat) = some vs →
      Memory.read t.fb0 (dy * dw + dx) = some (pack 0xFF#8
        (clamp8 (Int.tdiv (1000000 * ys.toNat + 1370705 * ((vs.toNat : Int) - 128)) 1000000))
        (clamp8 (Int.tdiv (1000000 * ys.toNat - 337633 * ((us.toNat : Int) - 128)
          - 698001 * ((vs.toNat : Int) - 128)) 1000000))
        (clamp8 (Int.tdiv (1000000 * ys.toNat + 1732446 * ((us.toNat : Int) - 128)) 1000000)))) ∧
    (∀ i, dw * dh ≤ i → Memory.read t.fb0 i = none)

/-- The fault `CONVERT` reports, in the order of 60_exceptions R164: an unwritten operand register, lowest
number first; `FactorZero`; `BufferIndex`; then the first pixel in row-major order with an index out of
range, then with an unwritten sample, in the order Y, U, V. -/
def Obligations.ConvertFaultPriority : Prop :=
  ∀ (m : Nat) (s : State),
    (∀ b r, [(s.csc.w.written, RegName.cscW), (s.csc.h.written, .cscH), (s.csc.f.written, .cscF),
        (s.csc.yRs.written, .yRs), (s.csc.yPs.written, .yPs), (s.csc.uRs.written, .uRs),
        (s.csc.uPs.written, .uPs), (s.csc.vRs.written, .vRs), (s.csc.vPs.written, .vPs)].find?
          (fun c => !c.1) = some (b, r) →
      exec (.convert m) s = .fault (.unwritten (.reg r))) ∧
    (cscWritten s = true → factor s = 0 → exec (.convert m) s = .fault .factorZero) ∧
    (cscWritten s = true → 1 ≤ factor s → s.cap.fbWords < outWidth s * outHeight s →
      exec (.convert m) s = .fault (.bufferIndex (outWidth s * outHeight s))) ∧
    (cscWritten s = true → 1 ≤ factor s → outWidth s * outHeight s ≤ s.cap.fbWords →
      ∀ dx dy, dx < outWidth s → dy < outHeight s →
      (∀ x y, x < outWidth s → y < outHeight s →
        y * outWidth s + x < dy * outWidth s + dx → IndicesInRange s x y) →
      (s.cap.planeY ≤ lumaIndex s dx dy →
        exec (.convert m) s = .fault (.planeIndex .py (lumaIndex s dx dy))) ∧
      (lumaIndex s dx dy < s.cap.planeY → s.cap.planeU ≤ uIndex s dx dy →
        exec (.convert m) s = .fault (.planeIndex .pu (uIndex s dx dy))) ∧
      (lumaIndex s dx dy < s.cap.planeY → uIndex s dx dy < s.cap.planeU →
        s.cap.planeV ≤ vIndex s dx dy →
        exec (.convert m) s = .fault (.planeIndex .pv (vIndex s dx dy)))) ∧
    (cscWritten s = true → 1 ≤ factor s → outWidth s * outHeight s ≤ s.cap.fbWords →
      (∀ x y, x < outWidth s → y < outHeight s → IndicesInRange s x y) →
      ∀ dx dy, dx < outWidth s → dy < outHeight s →
      (∀ x y, x < outWidth s → y < outHeight s →
        y * outWidth s + x < dy * outWidth s + dx → SamplesPresent s x y) →
      (Memory.read s.py (lumaIndex s dx dy) = none →
        exec (.convert m) s = .fault (.unwritten (.byte .py (lumaIndex s dx dy)))) ∧
      (Memory.read s.py (lumaIndex s dx dy) ≠ none → Memory.read s.pu (uIndex s dx dy) = none →
        exec (.convert m) s = .fault (.unwritten (.byte .pu (uIndex s dx dy)))) ∧
      (Memory.read s.py (lumaIndex s dx dy) ≠ none → Memory.read s.pu (uIndex s dx dy) ≠ none →
        Memory.read s.pv (vIndex s dx dy) = none →
        exec (.convert m) s = .fault (.unwritten (.byte .pv (vIndex s dx dy)))))

/-- The frame of `CONVERT` (40_color_space_converter R87, 20_memory R54): only `FB0` and its dimension
registers change; every plane byte and every word of `FB1` reads as before. -/
def Obligations.ConvertFrame : Prop :=
  ∀ (m : Nat) (s t : State), exec (.convert m) s = .next t →
    t = { s with fb0 := t.fb0, fb0W := t.fb0W, fb0H := t.fb0H } ∧
    (∀ p i, Memory.read (plane t p) i = Memory.read (plane s p) i) ∧
    (∀ i, Memory.read t.fb1 i = Memory.read s.fb1 i)

/-- 40_color_space_converter R89: zero-centred chroma gives grey equal to the luma value in all three
channels, at the extremes too. -/
def Obligations.ZeroChromaGivesGrey : Prop :=
  ∀ (m : Nat) (s : State), ConvertReady s →
    (∀ dx dy, dx < outWidth s → dy < outHeight s →
      Memory.read s.pu (uIndex s dx dy) = some 128#8 ∧ Memory.read s.pv (vIndex s dx dy) = some 128#8) →
    ∃ t, exec (.convert m) s = .next t ∧
      ∀ dx dy, dx < outWidth s → dy < outHeight s → ∀ ys,
        Memory.read s.py (lumaIndex s dx dy) = some ys →
        Memory.read t.fb0 (dy * outWidth s + dx) = some (pack 0xFF#8 ys ys ys)

/-- 40_color_space_converter R90: `CONVERT` is a pure function of its operands: the operand registers, the
planes and the capacities of the instance decide its outcome. -/
def Obligations.ConvertIsPure : Prop :=
  ∀ (m k : Nat) (s u : State), s.csc = u.csc → s.py = u.py → s.pu = u.pu → s.pv = u.pv → s.cap = u.cap →
    (∀ f, exec (.convert m) s = .fault f ↔ exec (.convert k) u = .fault f) ∧
    (∀ t, exec (.convert m) s = .next t →
      exec (.convert k) u = .next { u with fb0 := t.fb0, fb0W := t.fb0W, fb0H := t.fb0H })

/-! ## The filters -/

/-- The six filters. -/
abbrev filterCommands (m : Nat) : List Instr :=
  [.filtNoop m, .filtGray m, .filtEdge m, .filtBlur m, .filtSharpen m, .filtEmboss m]

/-- What every filter's next state has in common (41_point_filter_unit R100): same dimensions, and the
words beyond the buffer unspecified. -/
def SameDimensions (s t : State) : Prop :=
  t.fb1W = ⟨s.fb0W.val, true⟩ ∧ t.fb1H = ⟨s.fb0H.val, true⟩ ∧
    ∀ i, s.fb0W.val.toNat * s.fb0H.val.toNat ≤ i → Memory.read t.fb1 i = none

/-- What every filter does when its input is not in place (41_point_filter_unit R101, *Exceptions*):
`Unwritten` for a dimension register or an input word, `BufferIndex` for a buffer that does not fit. -/
def StopsUnready (i : Instr) (s : State) : Prop :=
  (s.fb0W.written = false → exec i s = .fault (.unwritten (.reg .fb0W))) ∧
  (s.fb0W.written = true → s.fb0H.written = false → exec i s = .fault (.unwritten (.reg .fb0H))) ∧
  (dimensionsWritten s = true → s.cap.fbWords < s.fb0W.val.toNat * s.fb0H.val.toNat →
    exec i s = .fault (.bufferIndex (s.fb0W.val.toNat * s.fb0H.val.toNat))) ∧
  (dimensionsWritten s = true → s.fb0W.val.toNat * s.fb0H.val.toNat ≤ s.cap.fbWords →
    ∀ n, n < s.fb0W.val.toNat * s.fb0H.val.toNat → Memory.read s.fb0 n = none →
      ∃ k, k < s.fb0W.val.toNat * s.fb0H.val.toNat ∧ Memory.read s.fb0 k = none ∧
        exec i s = .fault (.unwritten (.word .fb0 k)))

/-- 41_point_filter_unit R101: `FILT.NOOP` copies every word, alpha included; its faults. -/
def Obligations.NoopCopies : Prop :=
  ∀ (m : Nat) (s : State), (FilterReady s → ∃ t, exec (.filtNoop m) s = .next t ∧ SameDimensions s t ∧
    ∀ i, i < s.fb0W.val.toNat * s.fb0H.val.toNat → Memory.read t.fb1 i = Memory.read s.fb0 i) ∧
    StopsUnready (.filtNoop m) s

/-- 41_point_filter_unit R103 with the luma of R102: `R = G = B = (77R + 150G + 29B) >> 8`, opaque; its
faults. -/
def Obligations.GrayIsLuma : Prop :=
  ∀ (m : Nat) (s : State), (FilterReady s → ∃ t, exec (.filtGray m) s = .next t ∧ SameDimensions s t ∧
    ∀ i p, i < s.fb0W.val.toNat * s.fb0H.val.toNat → Memory.read s.fb0 i = some p →
      ∃ l : Byte, l.toNat = (77 * (red p).toNat + 150 * (green p).toNat + 29 * (blue p).toNat) >>> 8 ∧
        Memory.read t.fb1 i = some (pack 0xFF#8 l l l)) ∧
    StopsUnready (.filtGray m) s

/-- 41_point_filter_unit R102, R103: a pixel that is already grey is unchanged by `FILT.GRAY`. -/
def Obligations.GrayKeepsGrey : Prop :=
  ∀ (m : Nat) (s : State), FilterReady s → ∃ t, exec (.filtGray m) s = .next t ∧
    ∀ i v, i < s.fb0W.val.toNat * s.fb0H.val.toNat →
      Memory.read s.fb0 i = some (pack 0xFF#8 v v v) → Memory.read t.fb1 i = some (pack 0xFF#8 v v v)

/-- 41_point_filter_unit R104, R105, R106, R107: the gradient pair on the grey map in the interior, the
outermost ring opaque black; its faults. -/
def Obligations.EdgeResult : Prop :=
  ∀ (m : Nat) (s : State), StopsUnready (.filtEdge m) s ∧ (FilterReady s → ∃ t, exec (.filtEdge m) s = .next t ∧ SameDimensions s t ∧
    let w := s.fb0W.val.toNat
    let h := s.fb0H.val.toNat
    (∀ x y, x < w → y < h → x = 0 ∨ x + 1 = w ∨ y = 0 ∨ y + 1 = h →
      Memory.read t.fb1 (y * w + x) = some 0xFF000000#32) ∧
    (∀ g : Nat → Nat → Int,
      (∀ x y p, x < w → y < h → Memory.read s.fb0 (y * w + x) = some p →
        g x y = (((77 * (red p).toNat + 150 * (green p).toNat + 29 * (blue p).toNat) / 256 : Nat) : Int)) →
      ∀ x y, 1 ≤ x → x + 1 < w → 1 ≤ y → y + 1 < h →
        let gx := - g (x-1) (y-1) + g (x+1) (y-1) - 2 * g (x-1) y + 2 * g (x+1) y
          - g (x-1) (y+1) + g (x+1) (y+1)
        let gy := - g (x-1) (y-1) - 2 * g x (y-1) - g (x+1) (y-1)
          + g (x-1) (y+1) + 2 * g x (y+1) + g (x+1) (y+1)
        let v := BitVec.ofInt 8 (min (|gx| + |gy|) 255)
        Memory.read t.fb1 (y * w + x) = some (pack 0xFF#8 v v v)))

/-- 41_point_filter_unit R106: a flat field has no edge, the whole output is black. -/
def Obligations.EdgeOfFlatFieldIsBlack : Prop :=
  ∀ (m : Nat) (s : State) (p : Pixel), FilterReady s →
    (∀ i, i < inWidth s * inHeight s → Memory.read s.fb0 i = some p) →
    ∃ t, exec (.filtEdge m) s = .next t ∧
      ∀ i, i < inWidth s * inHeight s → Memory.read t.fb1 i = some 0xFF000000#32

/-- What a convolution command does with a kernel of size `size`, weights `k`, divisor `d` and bias `b`
(42_convolution_filter_bank R121, R122, R130, R131, R132): next state, same dimensions, border copied,
interior computed without flip, per channel: sum, divide toward zero, bias, clamp; alpha opaque. -/
def ConvolvesWith (i : Instr) (size : Nat) (k : Nat → Nat → Int) (d b : Int) (s : State) : Prop :=
  ∃ t, exec i s = .next t ∧ SameDimensions s t ∧
    let w := s.fb0W.val.toNat
    let h := s.fb0H.val.toNat
    let r := size / 2
    (∀ x y, x < w → y < h → ¬ (r ≤ x ∧ x + r < w ∧ r ≤ y ∧ y + r < h) →
      Memory.read t.fb1 (y * w + x) = Memory.read s.fb0 (y * w + x)) ∧
    (∀ src : Nat → Nat → Pixel,
      (∀ x y, x < w → y < h → Memory.read s.fb0 (y * w + x) = some (src x y)) →
      ∀ x y, r ≤ x → x + r < w → r ≤ y → y + r < h →
        let v := fun c : Pixel → Byte => clamp8 (Int.tdiv
          (∑ ky ∈ Finset.range size, ∑ kx ∈ Finset.range size,
            k ky kx * ((c (src (x + kx - r) (y + ky - r))).toNat : Int)) d + b)
        Memory.read t.fb1 (y * w + x) = some (pack 0xFF#8 (v red) (v green) (v blue)))

/-- 42_convolution_filter_bank R126: `FILT.BLUR`, 5×5, divisor 256, bias 0. The weights are the OPEN
parameter `K_BLUR` (R123): this holds whatever they are. -/
def Obligations.BlurResult : Prop :=
  ∀ (m : Nat) (s : State), (FilterReady s → ConvolvesWith (.filtBlur m) 5 Config.blurWeight 256 0 s) ∧
    StopsUnready (.filtBlur m) s

/-- 42_convolution_filter_bank R128: `FILT.EMBOSS`, 3×3, divisor 1, bias 128. The weights are the OPEN
parameter `K_EMBOSS` (R125): this holds whatever they are. -/
def Obligations.EmbossResult : Prop :=
  ∀ (m : Nat) (s : State), (FilterReady s → ConvolvesWith (.filtEmboss m) 3 Config.embossWeight 1 128 s) ∧
    StopsUnready (.filtEmboss m) s

/-- 42_convolution_filter_bank R124, R127: `FILT.SHARPEN` written out; its faults. -/
def Obligations.SharpenResult : Prop :=
  ∀ (m : Nat) (s : State), StopsUnready (.filtSharpen m) s ∧ (FilterReady s → ∃ t, exec (.filtSharpen m) s = .next t ∧ SameDimensions s t ∧
    let w := s.fb0W.val.toNat
    let h := s.fb0H.val.toNat
    (∀ x y, x < w → y < h → ¬ (1 ≤ x ∧ x + 1 < w ∧ 1 ≤ y ∧ y + 1 < h) →
      Memory.read t.fb1 (y * w + x) = Memory.read s.fb0 (y * w + x)) ∧
    (∀ src : Nat → Nat → Pixel,
      (∀ x y, x < w → y < h → Memory.read s.fb0 (y * w + x) = some (src x y)) →
      ∀ x y, 1 ≤ x → x + 1 < w → 1 ≤ y → y + 1 < h →
        let v := fun c : Pixel → Byte => clamp8 (5 * ((c (src x y)).toNat : Int)
          - (c (src x (y-1))).toNat - (c (src (x-1) y)).toNat
          - (c (src (x+1) y)).toNat - (c (src x (y+1))).toNat)
        Memory.read t.fb1 (y * w + x) = some (pack 0xFF#8 (v red) (v green) (v blue))))

/-- The document's scenario (95_test_vectors S9, 42_convolution_filter_bank R127): a flat opaque field is
a fixed point of Sharpen. -/
def Obligations.SharpenKeepsFlatField : Prop :=
  ∀ (m : Nat) (s : State) (p : Pixel), FilterReady s → alpha p = 0xFF#8 →
    (∀ i, i < inWidth s * inHeight s → Memory.read s.fb0 i = some p) →
    ∃ t, exec (.filtSharpen m) s = .next t ∧
      ∀ i, i < inWidth s * inHeight s → Memory.read t.fb1 i = some p

/-- 42_convolution_filter_bank R129: a frame with no interior makes a convolution behave as `FILT.NOOP`,
faults included. -/
def Obligations.NoInteriorActsAsNoop : Prop :=
  ∀ (m k : Nat) (s : State),
    (inWidth s ≤ 4 ∨ inHeight s ≤ 4 → exec (.filtBlur m) s = exec (.filtNoop k) s) ∧
    (inWidth s ≤ 2 ∨ inHeight s ≤ 2 → exec (.filtSharpen m) s = exec (.filtNoop k) s) ∧
    (inWidth s ≤ 2 ∨ inHeight s ≤ 2 → exec (.filtEmboss m) s = exec (.filtNoop k) s)

/-- 41_point_filter_unit R108, 20_memory R47: every computed pixel is opaque, and an opaque input pixel
gives an opaque output pixel under every filter. -/
def Obligations.OutputsOpaque : Prop :=
  ∀ (m : Nat) (i : Instr) (s : State), i ∈ filterCommands m → FilterReady s →
    ∃ t, exec i s = .next t ∧
      ∀ n, n < inWidth s * inHeight s → ∃ q, Memory.read t.fb1 n = some q ∧
        (i ∈ [Instr.filtGray m, .filtEdge m] → alpha q = 0xFF#8) ∧
        (i = .filtBlur m → interior 2 (inWidth s) (inHeight s) (n % inWidth s) (n / inWidth s) = true →
          alpha q = 0xFF#8) ∧
        (i ∈ [Instr.filtSharpen m, .filtEmboss m] →
          interior 1 (inWidth s) (inHeight s) (n % inWidth s) (n / inWidth s) = true →
          alpha q = 0xFF#8) ∧
        ((∃ p, Memory.read s.fb0 n = some p ∧ alpha p = 0xFF#8) → alpha q = 0xFF#8)

/-- The frame of every filter (41_point_filter_unit R100, 20_memory R54): only `FB1` and its dimension
registers change; every plane byte and every word of `FB0` reads as before. -/
def Obligations.FilterFrame : Prop :=
  ∀ (m : Nat) (i : Instr) (s t : State), i ∈ filterCommands m → exec i s = .next t →
    t = { s with fb1 := t.fb1, fb1W := t.fb1W, fb1H := t.fb1H } ∧
    (∀ p n, Memory.read (plane t p) n = Memory.read (plane s p) n) ∧
    (∀ n, Memory.read t.fb0 n = Memory.read s.fb0 n)

/-- 41_point_filter_unit R100: a filter's outcome depends only on the input buffer, its dimensions and the
capacity of the buffers: two states that agree there get the same `FB1`, or the same fault. -/
def Obligations.FilterDependsOnInputOnly : Prop :=
  ∀ (m : Nat) (i : Instr) (s u : State), i ∈ filterCommands m → s.fb0 = u.fb0 → s.fb0W = u.fb0W →
    s.fb0H = u.fb0H → s.cap.fbWords = u.cap.fbWords →
    (∀ f, exec i s = .fault f ↔ exec i u = .fault f) ∧
    (∀ t, exec i s = .next t →
      exec i u = .next { u with fb1 := t.fb1, fb1W := t.fb1W, fb1H := t.fb1H })

/-- The words a filter of radius `r` reads for pixel `(x, y)` are all written: an interior pixel's
neighbourhood, any other pixel itself (20_memory R53, 42_convolution_filter_bank R121). -/
def ReadsPresent (r : Nat) (s : State) (x y : Nat) : Prop :=
  let w := s.fb0W.val.toNat
  let h := s.fb0H.val.toNat
  if r ≤ x ∧ x + r < w ∧ r ≤ y ∧ y + r < h then
    ∀ ky kx, ky < 2 * r + 1 → kx < 2 * r + 1 →
      Memory.read s.fb0 ((y + ky - r) * w + (x + kx - r)) ≠ none
  else Memory.read s.fb0 (y * w + x) ≠ none

/-- Which unwritten word a filter reports (60_exceptions R164 item 6): that of the first reading pixel in
row-major order, and of an interior pixel's neighbourhood the first in row-major order; so the copy and the
grey filter report the first unwritten word. `FILT.EDGE` does so with radius 1 (DEDUCED: log 15). The size of
a buffer is the exact product (20_memory R45): 65536 × 65536 words never fit in fewer. -/
def Obligations.FilterFaultPriority : Prop :=
  (∀ (m : Nat) (i : Instr) (r : Nat) (s : State),
    (i, r) ∈ [(Instr.filtNoop m, 0), (.filtGray m, 0), (.filtEdge m, 1), (.filtBlur m, 2),
      (.filtSharpen m, 1), (.filtEmboss m, 1)] → dimensionsWritten s = true →
    let w := s.fb0W.val.toNat
    let h := s.fb0H.val.toNat
    w * h ≤ s.cap.fbWords → ∀ x y, x < w → y < h →
    (∀ a b, a < w → b < h → b * w + a < y * w + x → ReadsPresent r s a b) →
    (¬ (r ≤ x ∧ x + r < w ∧ r ≤ y ∧ y + r < h) → Memory.read s.fb0 (y * w + x) = none →
      exec i s = .fault (.unwritten (.word .fb0 (y * w + x)))) ∧
    (r ≤ x ∧ x + r < w ∧ r ≤ y ∧ y + r < h → ∀ ky kx, ky < 2 * r + 1 → kx < 2 * r + 1 →
      Memory.read s.fb0 ((y + ky - r) * w + (x + kx - r)) = none →
      (∀ a b, a < 2 * r + 1 → b < 2 * r + 1 → b * (2 * r + 1) + a < ky * (2 * r + 1) + kx →
        Memory.read s.fb0 ((y + b - r) * w + (x + a - r)) ≠ none) →
      exec i s = .fault (.unwritten (.word .fb0 ((y + ky - r) * w + (x + kx - r)))))) ∧
  (∀ (m : Nat) (i : Instr) (s : State), i ∈ [Instr.filtNoop m, .filtGray m] → dimensionsWritten s = true →
    inWidth s * inHeight s ≤ s.cap.fbWords → ∀ n, n < inWidth s * inHeight s → Memory.read s.fb0 n = none →
      (∀ k, k < n → Memory.read s.fb0 k ≠ none) → exec i s = .fault (.unwritten (.word .fb0 n))) ∧
  (∀ (m : Nat) (i : Instr) (s : State), i ∈ filterCommands m → s.fb0W = ⟨65536#32, true⟩ →
    s.fb0H = ⟨65536#32, true⟩ → s.cap.fbWords < 2 ^ 32 → exec i s = .fault (.bufferIndex 4294967296))

/-- 20_memory R55, R44: a command that produces a buffer writes every pixel of it, and the words of that
space at or beyond `W·H` are unspecified afterwards. -/
def Obligations.BuffersFullyPopulated : Prop :=
  ∀ (m : Nat) (s t : State),
    (exec (.convert m) s = .next t →
      (∀ k, k < t.fb0W.val.toNat * t.fb0H.val.toNat → (Memory.read t.fb0 k).isSome = true) ∧
      (∀ k, t.fb0W.val.toNat * t.fb0H.val.toNat ≤ k → Memory.read t.fb0 k = none)) ∧
    (∀ i ∈ filterCommands m, exec i s = .next t →
      (∀ k, k < t.fb1W.val.toNat * t.fb1H.val.toNat → (Memory.read t.fb1 k).isSome = true) ∧
      (∀ k, t.fb1W.val.toNat * t.fb1H.val.toNat ≤ k → Memory.read t.fb1 k = none))

/-! ## The tracker -/

/-- 43_rolling_statistics_accumulator R141: `TRK.RECORD` writes slot `pos` with the five samples and a
capture time, advances `pos` modulo `N` and counts up to `N`. The capture time is a free value; where a
test fixed the next answer of `TIME` (30_encoding R69) it is that one. A sample register that was never
written stops it. -/
def Obligations.RecordResult : Prop :=
  ∀ (m : Nat) (s : State), (samplesWritten s = true → ∃ t time, exec (.trkRecord m) s = .next t ∧
    (∀ a, s.timeNext = some a → time = a) ∧
    t.trk.ring = s.trk.ring.set s.trk.pos
      ⟨s.smp.d0.val, s.smp.d1.val, s.smp.d2.val, s.smp.d3.val, s.smp.d4.val, time⟩ ∧
    t.trk.pos = (s.trk.pos + 1) % s.trk.n ∧ t.trk.fill = min (s.trk.fill + 1) s.trk.n ∧
    t.trk.n = s.trk.n ∧ t.smp = s.smp ∧ t.result = s.result) ∧
    (samplesWritten s = false → ∃ r, r ∈ [RegName.sample0, .sample1, .sample2, .sample3, .sample4] ∧
      exec (.trkRecord m) s = .fault (.unwritten (.reg r)))

/-- 30_encoding R69, 10_state R18: the pseudo-action `TIME` fixes the answer to the next `TRK.RECORD`, which
uses it up; no other command does. THE MODEL'S CHOICE in it (log 8, log 26): the one field `timeNext` holds
that answer, so that a later `TIME` replaces an earlier one, and the count of draws advances all the same. -/
def Obligations.TimeFixesTheNextRecord : Prop :=
  ∀ (m : Nat) (s : State) (d : Dur), ∃ u, perform (.time d) s = .next u ∧
    u = { s with timeNext := some d } ∧
    (samplesWritten s = true → ∃ t, exec (.trkRecord m) u = .next t ∧
      t.trk.ring = s.trk.ring.set s.trk.pos
        ⟨s.smp.d0.val, s.smp.d1.val, s.smp.d2.val, s.smp.d3.val, s.smp.d4.val, d⟩ ∧
      t.timeNext = none ∧ t.draws = s.draws + 1) ∧
    (∀ i t, (∀ k, i ≠ .trkRecord k) → exec i s = .next t → t.timeNext = s.timeNext)

/-- 10_state R15: recording is appending to the list of at most `N` samples, oldest first, and dropping the
first if the length then exceeds `N`. -/
def Obligations.RecordAppendsToWindow : Prop :=
  ∀ (m : Nat) (s : State), TrackerInvariant s.trk → samplesWritten s = true →
    ∃ t x, exec (.trkRecord m) s = .next t ∧
      x = Slot.mk s.smp.d0.val s.smp.d1.val s.smp.d2.val s.smp.d3.val s.smp.d4.val x.t ∧
      validSamples t.trk =
        (if (validSamples s.trk).length < s.trk.n then validSamples s.trk ++ [x]
         else (validSamples s.trk).tail ++ [x])

/-- 43_rolling_statistics_accumulator R146: after the records `xs` since the last reset, the valid samples
are the last `min(k, N)` of them, in recording order (overwrite correctness). -/
def Obligations.WindowIsTheLastRecords : Prop :=
  ∀ (t : Tracker) (xs : List Slot), TrackerInvariant t → t.fill = 0 →
    validSamples (xs.foldl pushSlot t) = xs.drop (xs.length - t.n)

/-- The lowest unwritten `SAMPLE` register is the fault of `TRK.RECORD` (60_exceptions R162, R164). -/
def Obligations.RecordFaultPriority : Prop :=
  ∀ (m : Nat) (s : State) (b : Bool) (r : RegName),
    [(s.smp.d0.written, RegName.sample0), (s.smp.d1.written, .sample1), (s.smp.d2.written, .sample2),
      (s.smp.d3.written, .sample3), (s.smp.d4.written, .sample4)].find? (fun c => !c.1) = some (b, r) →
    exec (.trkRecord m) s = .fault (.unwritten (.reg r))

/-- 43_rolling_statistics_accumulator R143: 0 below two samples; `(fill − 1) / e` for a positive elapsed
time between the oldest and the newest valid sample. For `e ≤ 0` the command completes with a value
nothing is said about (R148). -/
def Obligations.FramerateResult : Prop :=
  ∀ (m : Nat) (s : State), TrackerInvariant s.trk → ∃ t, exec (.trkFramerate m) s = .next t ∧
    t.result.written = true ∧ t.trk = s.trk ∧
    (s.trk.fill < 2 → t.result.val.val = 0) ∧
    (2 ≤ s.trk.fill → ∀ old new, (validSamples s.trk).head? = some old →
      (validSamples s.trk).getLast? = some new → 0 < new.t.val - old.t.val →
      t.result.val.val = ((s.trk.fill : Rat) - 1) / (new.t.val - old.t.val))

/-- 43_rolling_statistics_accumulator R144: the arithmetic mean of the field over the valid slots
`(pos − fill + i) mod N`; 0 when empty. -/
def Obligations.AverageResult : Prop :=
  ∀ (m : Nat) (s : State) (i : Instr) (d : Slot → Dur),
    (i = .trkAverageConv m ∧ d = Slot.d0) ∨ (i = .trkAverageFilt m ∧ d = Slot.d1) ∨
      (i = .trkAverageComp m ∧ d = Slot.d2) ∨ (i = .trkAverageTotal m ∧ d = Slot.d3) ∨
      (i = .trkAverageE2e m ∧ d = Slot.d4) →
    ∃ t, exec i s = .next t ∧ t.result.written = true ∧ t.trk = s.trk ∧
      (s.trk.fill = 0 → t.result.val.val = 0) ∧
      (s.trk.fill ≠ 0 → t.result.val.val =
        (∑ j ∈ Finset.range s.trk.fill,
          (d (s.trk.ring.getD (((s.trk.pos : Int) - s.trk.fill + j) % s.trk.n).toNat Slot.zero)).val)
          / (s.trk.fill : Rat))

/-- 43_rolling_statistics_accumulator R145: `TRK.RESET` sets `fill` and `pos` to 0 and changes nothing
else; a following query gives 0, as on a fresh tracker. THE MODEL'S CHOICE in it (log 19): the contents of the
ring, which R145 calls unspecified, stay. -/
def Obligations.TrackerResetResult : Prop :=
  ∀ (m k : Nat) (s : State), ∃ t, exec (.trkReset m) s = .next t ∧
    t = { s with trk := { s.trk with fill := 0, pos := 0 } } ∧ validSamples t.trk = [] ∧
    ∀ i ∈ [Instr.trkFramerate k, .trkAverageConv k, .trkAverageFilt k, .trkAverageComp k,
        .trkAverageTotal k, .trkAverageE2e k],
      ∃ u, exec i t = .next u ∧ u.result.val.val = 0

/-- The frames of the tracker commands (43_rolling_statistics_accumulator R140): `TRK.RECORD` changes only
the tracker (and the model's record of the time source); a query changes only `RESULT` (and the model's
count of draws). No memory location changes. -/
def Obligations.TrackerFrame : Prop :=
  ∀ (m : Nat) (s t : State),
    (exec (.trkRecord m) s = .next t →
      t = { s with trk := t.trk, timeNext := t.timeNext, draws := t.draws }) ∧
    (∀ i ∈ [Instr.trkFramerate m, .trkAverageConv m, .trkAverageFilt m, .trkAverageComp m,
        .trkAverageTotal m, .trkAverageE2e m], exec i s = .next t →
      t = { s with result := t.result, draws := t.draws }) ∧
    (∀ i ∈ [Instr.trkRecord m, .trkFramerate m, .trkAverageConv m, .trkAverageFilt m, .trkAverageComp m,
        .trkAverageTotal m, .trkAverageE2e m, .trkReset m], exec i s = .next t →
      (∀ p n, Memory.read (plane t p) n = Memory.read (plane s p) n) ∧
      (∀ b n, Memory.read (buffer t b) n = Memory.read (buffer s b) n))

/-! ## Whole-machine rules -/

/-- Commands read the operand registers and planes and never write them (10_state R10, R16; 20_memory R54);
only `CONVERT` writes `FB0`, only a filter writes `FB1`, only `TRK.RECORD` and `TRK.RESET` change the
tracker, only the queries write `RESULT` (10_state R11, 20_memory R40). -/
def Obligations.CommandsRespectOwnership : Prop :=
  ∀ (i : Instr) (s t : State), exec i s = .next t →
    t.csc = s.csc ∧ t.smp = s.smp ∧ t.py = s.py ∧ t.pu = s.pu ∧ t.pv = s.pv ∧ t.host = s.host ∧
    ((∀ m, i ≠ .convert m) → t.fb0 = s.fb0 ∧ t.fb0W = s.fb0W ∧ t.fb0H = s.fb0H) ∧
    ((∀ m, i ∉ filterCommands m) → t.fb1 = s.fb1 ∧ t.fb1W = s.fb1W ∧ t.fb1H = s.fb1H) ∧
    ((∀ m, i ≠ .trkRecord m ∧ i ≠ .trkReset m) → t.trk = s.trk) ∧
    ((∀ m, i ∉ [Instr.trkFramerate m, .trkAverageConv m, .trkAverageFilt m, .trkAverageComp m,
      .trkAverageTotal m, .trkAverageE2e m]) → t.result = s.result)

/-- Nothing but a host write to `CMD` starts work (60_exceptions R172): every other action, the reset
signal apart, leaves the filter output, the tracker and `RESULT` as they are. -/
def Obligations.OnlyCommandsDoWork : Prop :=
  ∀ (a : HostAction) (s t : State), (∀ v, a ≠ .wr 0 v) → a ≠ .reset → perform a s = .next t →
    t.fb1 = s.fb1 ∧ t.fb1W = s.fb1W ∧ t.fb1H = s.fb1H ∧ t.trk = s.trk ∧ t.result = s.result ∧
    t.cap = s.cap ∧ t.faultMark = s.faultMark ∧ t.draws = s.draws

/-! ## The host port -/

/-- 10_state R10, R11: the registers 1 to 11 are read-write: a host write is what a host read then
returns, and no other register reads differently. -/
def Obligations.HostWritesReadBack : Prop :=
  ∀ (s : State) (n : Nat) (v : Word), 1 ≤ n → n ≤ 11 → ∃ t, perform (.wr n v) s = .next t ∧
    perform (.rd n) t = .next (observe t (.word v)) ∧
    (∀ k o, k ≠ n → (perform (.rd k) t = .next (observe t o) ↔ perform (.rd k) s = .next (observe s o))) ∧
    t = { s with csc := t.csc, fb0W := t.fb0W, fb0H := t.fb0H }

/-- 10_state R16: a host write of a duration to `SAMPLE0` .. `SAMPLE4` is what a host read returns, no
other register reads differently, and nothing but the sample registers changes. An integer literal
(30_encoding R69) writes the duration of that value. -/
def Obligations.HostWritesSamples : Prop :=
  ∀ (s : State) (n : Nat), 14 ≤ n → n ≤ 18 →
    (∀ d : Dur, ∃ t, perform (.wrDur n d) s = .next t ∧
      perform (.rd n) t = .next (observe t (.dur d)) ∧
      (∀ k o, k ≠ n → (perform (.rd k) t = .next (observe t o) ↔ perform (.rd k) s = .next (observe s o))) ∧
      t = { s with smp := t.smp }) ∧
    (∀ v : Word, ∃ d : Dur, d.val = (v.toNat : Rat) ∧ perform (.wr n v) s = perform (.wrDur n d) s)

/-- 10_state R11, 20_memory R40, R51: what a host read gives. A written register gives its value, the
read-only `FB1_W`, `FB1_H` and `RESULT` among them; a written location gives its value, in `FB1` too. THE
MODEL'S CHOICE in it (log 20): the value read is appended to the host's record, and nothing else changes. -/
def Obligations.HostReads : Prop :=
  ∀ s : State,
    (∀ c ∈ [(1, s.csc.w), (2, s.csc.h), (3, s.csc.f), (4, s.csc.yRs), (5, s.csc.yPs), (6, s.csc.uRs),
        (7, s.csc.uPs), (8, s.csc.vRs), (9, s.csc.vPs), (10, s.fb0W), (11, s.fb0H), (12, s.fb1W),
        (13, s.fb1H)],
      c.2.written = true → perform (.rd c.1) s = .next (observe s (.word c.2.val))) ∧
    (∀ c ∈ [(14, s.smp.d0), (15, s.smp.d1), (16, s.smp.d2), (17, s.smp.d3), (18, s.smp.d4), (19, s.result)],
      c.2.written = true → perform (.rd c.1) s = .next (observe s (.dur c.2.val))) ∧
    (∀ p i v, i < planeCapacity s p → Memory.read (plane s p) i = some v →
      perform (.ldByte p i) s = .next (observe s (.byte v))) ∧
    (∀ b i v, i < s.cap.fbWords → Memory.read (buffer s b) i = some v →
      perform (.ldWord b i) s = .next (observe s (.pixel v))) ∧
    (∀ a t, (∃ n, a = .rd n) ∨ (∃ p i, a = .ldByte p i) ∨ (∃ b i, a = .ldWord b i) →
      perform a s = .next t →
      ∃ o, t = { s with host := ⟨s.host.todo, s.host.index, s.host.seen ++ [o]⟩ })

/-- 60_exceptions R171: what is refused at the host boundary; a write to a read-only register (`FB1_W`,
`FB1_H`, `RESULT`) is not refused but ignored. -/
def Obligations.HostRefusals : Prop :=
  ∀ s : State,
    perform (.rd 0) s = .refused .readOfCmd ∧
    (∀ i v, perform (.stWord .fb1 i v) s = .refused .writeToFb1) ∧
    (∀ n v d, 20 ≤ n → perform (.wr n v) s = .refused (.noSuchRegister n) ∧
      perform (.wrDur n d) s = .refused (.noSuchRegister n) ∧
      perform (.rd n) s = .refused (.noSuchRegister n)) ∧
    (∀ p i v, planeCapacity s p ≤ i →
      perform (.stByte p i v) s = .refused (.beyondCapacity (.byte p i)) ∧
      perform (.ldByte p i) s = .refused (.beyondCapacity (.byte p i))) ∧
    (∀ b i v, s.cap.fbWords ≤ i →
      perform (.stWord .fb0 i v) s = .refused (.beyondCapacity (.word .fb0 i)) ∧
      perform (.ldWord b i) s = .refused (.beyondCapacity (.word b i))) ∧
    (∀ p i, i < planeCapacity s p → Memory.read (plane s p) i = none →
      perform (.ldByte p i) s = .refused (.unspecifiedRead (.byte p i))) ∧
    (∀ b i, i < s.cap.fbWords → Memory.read (buffer s b) i = none →
      perform (.ldWord b i) s = .refused (.unspecifiedRead (.word b i))) ∧
    (∀ c ∈ [(1, s.csc.w.written, RegName.cscW), (2, s.csc.h.written, .cscH), (3, s.csc.f.written, .cscF),
        (4, s.csc.yRs.written, .yRs), (5, s.csc.yPs.written, .yPs), (6, s.csc.uRs.written, .uRs),
        (7, s.csc.uPs.written, .uPs), (8, s.csc.vRs.written, .vRs), (9, s.csc.vPs.written, .vPs),
        (10, s.fb0W.written, .fb0W), (11, s.fb0H.written, .fb0H), (12, s.fb1W.written, .fb1W),
        (13, s.fb1H.written, .fb1H), (14, s.smp.d0.written, .sample0), (15, s.smp.d1.written, .sample1),
        (16, s.smp.d2.written, .sample2), (17, s.smp.d3.written, .sample3), (18, s.smp.d4.written, .sample4),
        (19, s.result.written, .result)],
      c.2.1 = false → perform (.rd c.1) s = .refused (.unspecifiedRead (.reg c.2.2))) ∧
    (∀ n ∈ [12, 13, 19], ∀ v d, perform (.wr n v) s = .next s ∧ perform (.wrDur n d) s = .next s)

/-- 20_memory R40, R51: a host store is what a host load then returns, every other location of every
space reads as before, and nothing but that kind of space changes. -/
def Obligations.HostStoresLoadBack : Prop :=
  (∀ (s : State) (p : Plane) (i : Nat) (v : Byte), i < planeCapacity s p →
    ∃ t, perform (.stByte p i v) s = .next t ∧ perform (.ldByte p i) t = .next (observe t (.byte v)) ∧
      (∀ q j, (q, j) ≠ (p, i) → Memory.read (plane t q) j = Memory.read (plane s q) j) ∧
      (∀ b j, Memory.read (buffer t b) j = Memory.read (buffer s b) j) ∧
      t = { s with py := t.py, pu := t.pu, pv := t.pv }) ∧
  (∀ (s : State) (i : Nat) (v : Pixel), i < s.cap.fbWords →
    ∃ t, perform (.stWord .fb0 i v) s = .next t ∧
      perform (.ldWord .fb0 i) t = .next (observe t (.pixel v)) ∧
      (∀ q j, Memory.read (plane t q) j = Memory.read (plane s q) j) ∧
      (∀ b j, (b, j) ≠ (Buffer.fb0, i) → Memory.read (buffer t b) j = Memory.read (buffer s b) j) ∧
      t = { s with fb0 := t.fb0 })

/-! ## Invariants -/

/-- Every step keeps every memory space in its canonical form. -/
def Obligations.StepKeepsMemoryCanonical : Prop :=
  ∀ s t : State, memoryCanonical s = true → step s = .next t → memoryCanonical t = true

/-- Every step keeps every memory space within its capacity (20_memory R40, R43): no index at or beyond it
is ever written. -/
def Obligations.StepKeepsMemoryInRange : Prop :=
  ∀ s t : State, memoryInRange s = true → step s = .next t → memoryInRange t = true

/-- 10_state R14: every step keeps the tracker's invariant. -/
def Obligations.StepKeepsTrackerInvariant : Prop :=
  ∀ s t : State, TrackerInvariant s.trk → step s = .next t → TrackerInvariant t.trk

/-- 20_memory R42, R55: every step keeps `FB1` exactly the fully written packed buffer of its dimension
registers. THE MODEL'S CHOICE in it (log 1, log 12): after the hardware reset, which leaves `FB1` unwritten,
that buffer is the empty one, because the model has `FB1_W` and `FB1_H` at 0 there. -/
def Obligations.StepKeepsOutputPopulated : Prop :=
  ∀ s t : State, OutputPopulated s → step s = .next t → OutputPopulated t

/-- The invariants hold after reset; the last by THE MODEL'S CHOICE of 0 for `FB1_W` and `FB1_H` (log 1). -/
def Obligations.ResetMeetsTheInvariants : Prop :=
  memoryCanonical State.reset = true ∧ memoryInRange State.reset = true ∧
    TrackerInvariant State.reset.trk ∧ OutputPopulated State.reset
end

