-- ==== Sys2Proof/Laws/Memory.lean ====
section
/-! SUPPORT. What the operations on a memory space do: reads after writes, and that every operation keeps
the canonical form and the capacity. -/

namespace Sys2Proof.Machine

variable {α : Type}

theorem Memory.read_write_same (m : List (Nat × α)) (i : Nat) (v : α) :
    Memory.read (Memory.write m i v) i = some v := by
  induction m with
  | nil => simp [Memory.write, Memory.read]
  | cons c m ih =>
    obtain ⟨j, u⟩ := c
    unfold Memory.write
    split_ifs with h₁ h₂
    · simp [Memory.read]
    · simp [Memory.read]
    · simpa [Memory.read, Ne.symm h₂] using ih

theorem Memory.read_write_other (m : List (Nat × α)) {i j : Nat} (v : α) (h : j ≠ i) :
    Memory.read (Memory.write m i v) j = Memory.read m j := by
  induction m with
  | nil => simp [Memory.write, Memory.read, Ne.symm h]
  | cons c m ih =>
    obtain ⟨k, u⟩ := c
    unfold Memory.write
    split_ifs with h₁ h₂
    · simp [Memory.read, Ne.symm h]
    · subst h₂
      simp [Memory.read, Ne.symm h]
    · simp only [Memory.read]
      split_ifs
      · rfl
      · exact ih

theorem Memory.read_append (m l : List (Nat × α)) (i : Nat) :
    Memory.read (m ++ l) i = (Memory.read m i).or (Memory.read l i) := by
  induction m with
  | nil => simp [Memory.read]
  | cons c m ih =>
    obtain ⟨j, u⟩ := c
    simp only [List.cons_append, Memory.read]
    split_ifs
    · simp
    · exact ih

/-- A filled space holds the words below `n` and nothing else. -/
theorem Memory.read_fill (n : Nat) (f : Nat → α) (i : Nat) :
    Memory.read (Memory.fill n f) i = if i < n then some (f i) else none := by
  induction n with
  | zero => simp [Memory.fill, Memory.read]
  | succ n ih =>
    have h : Memory.fill (n + 1) f = Memory.fill n f ++ [(n, f n)] := by
      simp [Memory.fill, List.range_succ]
    rw [h, Memory.read_append, ih]
    by_cases h₁ : i < n
    · simp [h₁, Nat.lt_succ_of_lt h₁]
    · by_cases h₂ : i = n
      · simp [h₂, Memory.read]
      · have h₃ : ¬ i < n + 1 := by omega
        simp [h₁, h₃, Memory.read, Ne.symm h₂]

/-- The canonical form is that the indices are strictly rising. -/
theorem Memory.wf_iff (m : List (Nat × α)) :
    Memory.wf m = true ↔ (m.map Prod.fst).Pairwise (· < ·) := by
  induction m with
  | nil => simp [Memory.wf]
  | cons c m ih =>
    cases m with
    | nil => simp [Memory.wf]
    | cons d m =>
      obtain ⟨i, u⟩ := c
      obtain ⟨j, v⟩ := d
      simp only [Memory.wf, Bool.and_eq_true, decide_eq_true_eq, ih]
      simp only [List.map_cons, List.pairwise_cons, List.mem_cons]
      constructor
      · rintro ⟨h, h₁, h₂⟩
        refine ⟨?_, h₁, h₂⟩
        rintro a (rfl | ha)
        · exact h
        · exact lt_trans h (h₁ a ha)
      · rintro ⟨h, h₁, h₂⟩
        exact ⟨h j (Or.inl rfl), h₁, h₂⟩

theorem Memory.fst_fill (n : Nat) (f : Nat → α) : (Memory.fill n f).map Prod.fst = List.range n := by
  simp [Memory.fill, Function.comp_def]

theorem Memory.fill_wf (n : Nat) (f : Nat → α) : Memory.wf (Memory.fill n f) = true := by
  rw [Memory.wf_iff, Memory.fst_fill]
  exact List.pairwise_lt_range

theorem Memory.mem_fst_write (m : List (Nat × α)) (i : Nat) (v : α) (k : Nat) :
    k ∈ (Memory.write m i v).map Prod.fst → k = i ∨ k ∈ m.map Prod.fst := by
  induction m with
  | nil => simp [Memory.write]
  | cons c m ih =>
    obtain ⟨j, u⟩ := c
    unfold Memory.write
    split_ifs with h₁ h₂
    · simp
    · subst h₂
      simp only [List.map_cons, List.mem_cons]
      tauto
    · simp only [List.map_cons, List.mem_cons]
      intro h
      rcases h with h | h
      · tauto
      · rcases ih h with h | h <;> tauto

theorem Memory.write_wf (m : List (Nat × α)) (i : Nat) (v : α) (h : Memory.wf m = true) :
    Memory.wf (Memory.write m i v) = true := by
  rw [Memory.wf_iff] at h ⊢
  induction m with
  | nil => simp [Memory.write]
  | cons c m ih =>
    obtain ⟨j, u⟩ := c
    simp only [List.map_cons, List.pairwise_cons] at h
    unfold Memory.write
    split_ifs with h₁ h₂
    · simp only [List.map_cons, List.pairwise_cons, List.mem_cons]
      refine ⟨?_, h.1, h.2⟩
      rintro a (rfl | ha)
      · exact h₁
      · exact lt_trans h₁ (h.1 a ha)
    · subst h₂
      simpa using h
    · simp only [List.map_cons, List.pairwise_cons]
      refine ⟨?_, ih h.2⟩
      intro a ha
      rcases Memory.mem_fst_write m i v a ha with rfl | ha
      · omega
      · exact h.1 a ha

theorem Memory.below_iff (cap : Nat) (m : List (Nat × α)) :
    Memory.below cap m = true ↔ ∀ k ∈ m.map Prod.fst, k < cap := by
  simp [Memory.below]

theorem Memory.fill_below {n cap : Nat} (f : Nat → α) (h : n ≤ cap) :
    Memory.below cap (Memory.fill n f) = true := by
  rw [Memory.below_iff, Memory.fst_fill]
  intro k hk
  exact lt_of_lt_of_le (List.mem_range.mp hk) h

theorem Memory.write_below {cap i : Nat} (m : List (Nat × α)) (v : α) (hi : i < cap)
    (h : Memory.below cap m = true) : Memory.below cap (Memory.write m i v) = true := by
  rw [Memory.below_iff] at h ⊢
  intro k hk
  rcases Memory.mem_fst_write m i v k hk with rfl | hk
  · exact hi
  · exact h k hk

end Sys2Proof.Machine
end

