-- ==== Sys2Proof/Laws/State.lean ====
section
/-! SUPPORT. What each named update leaves in each field of State: one lemma a field, true by rfl. -/

namespace Sys2Proof.Machine

/-! ## convertResult -/

@[simp] theorem convertResult_csc (s : State) : (convertResult s).csc = s.csc := rfl
@[simp] theorem convertResult_fb0W (s : State) :
    (convertResult s).fb0W = RegCell.set (BitVec.ofNat 32 (outWidth s)) := rfl
@[simp] theorem convertResult_fb0H (s : State) :
    (convertResult s).fb0H = RegCell.set (BitVec.ofNat 32 (outHeight s)) := rfl
@[simp] theorem convertResult_fb1W (s : State) : (convertResult s).fb1W = s.fb1W := rfl
@[simp] theorem convertResult_fb1H (s : State) : (convertResult s).fb1H = s.fb1H := rfl
@[simp] theorem convertResult_smp (s : State) : (convertResult s).smp = s.smp := rfl
@[simp] theorem convertResult_result (s : State) : (convertResult s).result = s.result := rfl
@[simp] theorem convertResult_trk (s : State) : (convertResult s).trk = s.trk := rfl
@[simp] theorem convertResult_py (s : State) : (convertResult s).py = s.py := rfl
@[simp] theorem convertResult_pu (s : State) : (convertResult s).pu = s.pu := rfl
@[simp] theorem convertResult_pv (s : State) : (convertResult s).pv = s.pv := rfl
@[simp] theorem convertResult_fb0 (s : State) :
    (convertResult s).fb0 = Memory.fill (outWidth s * outHeight s) fun i => convertPixel s (i % outWidth s) (i / outWidth s) := rfl
@[simp] theorem convertResult_fb1 (s : State) : (convertResult s).fb1 = s.fb1 := rfl
@[simp] theorem convertResult_cap (s : State) : (convertResult s).cap = s.cap := rfl
@[simp] theorem convertResult_faultMark (s : State) : (convertResult s).faultMark = s.faultMark := rfl
@[simp] theorem convertResult_timeNext (s : State) : (convertResult s).timeNext = s.timeNext := rfl
@[simp] theorem convertResult_draws (s : State) : (convertResult s).draws = s.draws := rfl
@[simp] theorem convertResult_host (s : State) : (convertResult s).host = s.host := rfl

/-! ## filterResult -/

@[simp] theorem filterResult_csc (out : State → Nat → Nat → Pixel) (s : State) :
    (filterResult out s).csc = s.csc := rfl
@[simp] theorem filterResult_fb0W (out : State → Nat → Nat → Pixel) (s : State) :
    (filterResult out s).fb0W = s.fb0W := rfl
@[simp] theorem filterResult_fb0H (out : State → Nat → Nat → Pixel) (s : State) :
    (filterResult out s).fb0H = s.fb0H := rfl
@[simp] theorem filterResult_fb1W (out : State → Nat → Nat → Pixel) (s : State) :
    (filterResult out s).fb1W = RegCell.set s.fb0W.val := rfl
@[simp] theorem filterResult_fb1H (out : State → Nat → Nat → Pixel) (s : State) :
    (filterResult out s).fb1H = RegCell.set s.fb0H.val := rfl
@[simp] theorem filterResult_smp (out : State → Nat → Nat → Pixel) (s : State) :
    (filterResult out s).smp = s.smp := rfl
@[simp] theorem filterResult_result (out : State → Nat → Nat → Pixel) (s : State) :
    (filterResult out s).result = s.result := rfl
@[simp] theorem filterResult_trk (out : State → Nat → Nat → Pixel) (s : State) :
    (filterResult out s).trk = s.trk := rfl
@[simp] theorem filterResult_py (out : State → Nat → Nat → Pixel) (s : State) :
    (filterResult out s).py = s.py := rfl
@[simp] theorem filterResult_pu (out : State → Nat → Nat → Pixel) (s : State) :
    (filterResult out s).pu = s.pu := rfl
@[simp] theorem filterResult_pv (out : State → Nat → Nat → Pixel) (s : State) :
    (filterResult out s).pv = s.pv := rfl
@[simp] theorem filterResult_fb0 (out : State → Nat → Nat → Pixel) (s : State) :
    (filterResult out s).fb0 = s.fb0 := rfl
@[simp] theorem filterResult_fb1 (out : State → Nat → Nat → Pixel) (s : State) :
    (filterResult out s).fb1 = Memory.fill (inWidth s * inHeight s) fun i => out s (i % inWidth s) (i / inWidth s) := rfl
@[simp] theorem filterResult_cap (out : State → Nat → Nat → Pixel) (s : State) :
    (filterResult out s).cap = s.cap := rfl
@[simp] theorem filterResult_faultMark (out : State → Nat → Nat → Pixel) (s : State) :
    (filterResult out s).faultMark = s.faultMark := rfl
@[simp] theorem filterResult_timeNext (out : State → Nat → Nat → Pixel) (s : State) :
    (filterResult out s).timeNext = s.timeNext := rfl
@[simp] theorem filterResult_draws (out : State → Nat → Nat → Pixel) (s : State) :
    (filterResult out s).draws = s.draws := rfl
@[simp] theorem filterResult_host (out : State → Nat → Nat → Pixel) (s : State) :
    (filterResult out s).host = s.host := rfl

/-! ## recordResult -/

@[simp] theorem recordResult_csc (s : State) : (recordResult s).csc = s.csc := rfl
@[simp] theorem recordResult_fb0W (s : State) : (recordResult s).fb0W = s.fb0W := rfl
@[simp] theorem recordResult_fb0H (s : State) : (recordResult s).fb0H = s.fb0H := rfl
@[simp] theorem recordResult_fb1W (s : State) : (recordResult s).fb1W = s.fb1W := rfl
@[simp] theorem recordResult_fb1H (s : State) : (recordResult s).fb1H = s.fb1H := rfl
@[simp] theorem recordResult_smp (s : State) : (recordResult s).smp = s.smp := rfl
@[simp] theorem recordResult_result (s : State) : (recordResult s).result = s.result := rfl
@[simp] theorem recordResult_trk (s : State) :
    (recordResult s).trk = pushSlot s.trk (sampleSlot s (timeAnswer s)) := rfl
@[simp] theorem recordResult_py (s : State) : (recordResult s).py = s.py := rfl
@[simp] theorem recordResult_pu (s : State) : (recordResult s).pu = s.pu := rfl
@[simp] theorem recordResult_pv (s : State) : (recordResult s).pv = s.pv := rfl
@[simp] theorem recordResult_fb0 (s : State) : (recordResult s).fb0 = s.fb0 := rfl
@[simp] theorem recordResult_fb1 (s : State) : (recordResult s).fb1 = s.fb1 := rfl
@[simp] theorem recordResult_cap (s : State) : (recordResult s).cap = s.cap := rfl
@[simp] theorem recordResult_faultMark (s : State) : (recordResult s).faultMark = s.faultMark := rfl
@[simp] theorem recordResult_timeNext (s : State) : (recordResult s).timeNext = none := rfl
@[simp] theorem recordResult_draws (s : State) : (recordResult s).draws = s.draws + 1 := rfl
@[simp] theorem recordResult_host (s : State) : (recordResult s).host = s.host := rfl

/-! ## writeResult -/

@[simp] theorem writeResult_csc (s : State) (d : Dur) : (writeResult s d).csc = s.csc := rfl
@[simp] theorem writeResult_fb0W (s : State) (d : Dur) : (writeResult s d).fb0W = s.fb0W := rfl
@[simp] theorem writeResult_fb0H (s : State) (d : Dur) : (writeResult s d).fb0H = s.fb0H := rfl
@[simp] theorem writeResult_fb1W (s : State) (d : Dur) : (writeResult s d).fb1W = s.fb1W := rfl
@[simp] theorem writeResult_fb1H (s : State) (d : Dur) : (writeResult s d).fb1H = s.fb1H := rfl
@[simp] theorem writeResult_smp (s : State) (d : Dur) : (writeResult s d).smp = s.smp := rfl
@[simp] theorem writeResult_result (s : State) (d : Dur) : (writeResult s d).result = RegCell.set d := rfl
@[simp] theorem writeResult_trk (s : State) (d : Dur) : (writeResult s d).trk = s.trk := rfl
@[simp] theorem writeResult_py (s : State) (d : Dur) : (writeResult s d).py = s.py := rfl
@[simp] theorem writeResult_pu (s : State) (d : Dur) : (writeResult s d).pu = s.pu := rfl
@[simp] theorem writeResult_pv (s : State) (d : Dur) : (writeResult s d).pv = s.pv := rfl
@[simp] theorem writeResult_fb0 (s : State) (d : Dur) : (writeResult s d).fb0 = s.fb0 := rfl
@[simp] theorem writeResult_fb1 (s : State) (d : Dur) : (writeResult s d).fb1 = s.fb1 := rfl
@[simp] theorem writeResult_cap (s : State) (d : Dur) : (writeResult s d).cap = s.cap := rfl
@[simp] theorem writeResult_faultMark (s : State) (d : Dur) : (writeResult s d).faultMark = s.faultMark := rfl
@[simp] theorem writeResult_timeNext (s : State) (d : Dur) : (writeResult s d).timeNext = s.timeNext := rfl
@[simp] theorem writeResult_draws (s : State) (d : Dur) : (writeResult s d).draws = s.draws := rfl
@[simp] theorem writeResult_host (s : State) (d : Dur) : (writeResult s d).host = s.host := rfl

/-! ## trackerResetResult -/

@[simp] theorem trackerResetResult_csc (s : State) : (trackerResetResult s).csc = s.csc := rfl
@[simp] theorem trackerResetResult_fb0W (s : State) : (trackerResetResult s).fb0W = s.fb0W := rfl
@[simp] theorem trackerResetResult_fb0H (s : State) : (trackerResetResult s).fb0H = s.fb0H := rfl
@[simp] theorem trackerResetResult_fb1W (s : State) : (trackerResetResult s).fb1W = s.fb1W := rfl
@[simp] theorem trackerResetResult_fb1H (s : State) : (trackerResetResult s).fb1H = s.fb1H := rfl
@[simp] theorem trackerResetResult_smp (s : State) : (trackerResetResult s).smp = s.smp := rfl
@[simp] theorem trackerResetResult_result (s : State) : (trackerResetResult s).result = s.result := rfl
@[simp] theorem trackerResetResult_trk (s : State) :
    (trackerResetResult s).trk = { s.trk with fill := 0, pos := 0 } := rfl
@[simp] theorem trackerResetResult_py (s : State) : (trackerResetResult s).py = s.py := rfl
@[simp] theorem trackerResetResult_pu (s : State) : (trackerResetResult s).pu = s.pu := rfl
@[simp] theorem trackerResetResult_pv (s : State) : (trackerResetResult s).pv = s.pv := rfl
@[simp] theorem trackerResetResult_fb0 (s : State) : (trackerResetResult s).fb0 = s.fb0 := rfl
@[simp] theorem trackerResetResult_fb1 (s : State) : (trackerResetResult s).fb1 = s.fb1 := rfl
@[simp] theorem trackerResetResult_cap (s : State) : (trackerResetResult s).cap = s.cap := rfl
@[simp] theorem trackerResetResult_faultMark (s : State) :
    (trackerResetResult s).faultMark = s.faultMark := rfl
@[simp] theorem trackerResetResult_timeNext (s : State) : (trackerResetResult s).timeNext = s.timeNext := rfl
@[simp] theorem trackerResetResult_draws (s : State) : (trackerResetResult s).draws = s.draws := rfl
@[simp] theorem trackerResetResult_host (s : State) : (trackerResetResult s).host = s.host := rfl

/-! ## advanceHost -/

@[simp] theorem advanceHost_csc (s : State) : (advanceHost s).csc = s.csc := rfl
@[simp] theorem advanceHost_fb0W (s : State) : (advanceHost s).fb0W = s.fb0W := rfl
@[simp] theorem advanceHost_fb0H (s : State) : (advanceHost s).fb0H = s.fb0H := rfl
@[simp] theorem advanceHost_fb1W (s : State) : (advanceHost s).fb1W = s.fb1W := rfl
@[simp] theorem advanceHost_fb1H (s : State) : (advanceHost s).fb1H = s.fb1H := rfl
@[simp] theorem advanceHost_smp (s : State) : (advanceHost s).smp = s.smp := rfl
@[simp] theorem advanceHost_result (s : State) : (advanceHost s).result = s.result := rfl
@[simp] theorem advanceHost_trk (s : State) : (advanceHost s).trk = s.trk := rfl
@[simp] theorem advanceHost_py (s : State) : (advanceHost s).py = s.py := rfl
@[simp] theorem advanceHost_pu (s : State) : (advanceHost s).pu = s.pu := rfl
@[simp] theorem advanceHost_pv (s : State) : (advanceHost s).pv = s.pv := rfl
@[simp] theorem advanceHost_fb0 (s : State) : (advanceHost s).fb0 = s.fb0 := rfl
@[simp] theorem advanceHost_fb1 (s : State) : (advanceHost s).fb1 = s.fb1 := rfl
@[simp] theorem advanceHost_cap (s : State) : (advanceHost s).cap = s.cap := rfl
@[simp] theorem advanceHost_faultMark (s : State) : (advanceHost s).faultMark = s.faultMark := rfl
@[simp] theorem advanceHost_timeNext (s : State) : (advanceHost s).timeNext = s.timeNext := rfl
@[simp] theorem advanceHost_draws (s : State) : (advanceHost s).draws = s.draws := rfl
@[simp] theorem advanceHost_host (s : State) :
    (advanceHost s).host = { s.host with todo := s.host.todo.tail, index := s.host.index + 1 } := rfl

/-! ## observe -/

@[simp] theorem observe_csc (s : State) (v : Observed) : (observe s v).csc = s.csc := rfl
@[simp] theorem observe_fb0W (s : State) (v : Observed) : (observe s v).fb0W = s.fb0W := rfl
@[simp] theorem observe_fb0H (s : State) (v : Observed) : (observe s v).fb0H = s.fb0H := rfl
@[simp] theorem observe_fb1W (s : State) (v : Observed) : (observe s v).fb1W = s.fb1W := rfl
@[simp] theorem observe_fb1H (s : State) (v : Observed) : (observe s v).fb1H = s.fb1H := rfl
@[simp] theorem observe_smp (s : State) (v : Observed) : (observe s v).smp = s.smp := rfl
@[simp] theorem observe_result (s : State) (v : Observed) : (observe s v).result = s.result := rfl
@[simp] theorem observe_trk (s : State) (v : Observed) : (observe s v).trk = s.trk := rfl
@[simp] theorem observe_py (s : State) (v : Observed) : (observe s v).py = s.py := rfl
@[simp] theorem observe_pu (s : State) (v : Observed) : (observe s v).pu = s.pu := rfl
@[simp] theorem observe_pv (s : State) (v : Observed) : (observe s v).pv = s.pv := rfl
@[simp] theorem observe_fb0 (s : State) (v : Observed) : (observe s v).fb0 = s.fb0 := rfl
@[simp] theorem observe_fb1 (s : State) (v : Observed) : (observe s v).fb1 = s.fb1 := rfl
@[simp] theorem observe_cap (s : State) (v : Observed) : (observe s v).cap = s.cap := rfl
@[simp] theorem observe_faultMark (s : State) (v : Observed) : (observe s v).faultMark = s.faultMark := rfl
@[simp] theorem observe_timeNext (s : State) (v : Observed) : (observe s v).timeNext = s.timeNext := rfl
@[simp] theorem observe_draws (s : State) (v : Observed) : (observe s v).draws = s.draws := rfl
@[simp] theorem observe_host (s : State) (v : Observed) :
    (observe s v).host = { s.host with seen := s.host.seen ++ [v] } := rfl

/-! ## hardwareReset -/

@[simp] theorem hardwareReset_csc (s : State) : (hardwareReset s).csc = CscRegs.initial true := rfl
@[simp] theorem hardwareReset_fb0W (s : State) : (hardwareReset s).fb0W = ⟨0, true⟩ := rfl
@[simp] theorem hardwareReset_fb0H (s : State) : (hardwareReset s).fb0H = ⟨0, true⟩ := rfl
@[simp] theorem hardwareReset_fb1W (s : State) : (hardwareReset s).fb1W = ⟨0, true⟩ := rfl
@[simp] theorem hardwareReset_fb1H (s : State) : (hardwareReset s).fb1H = ⟨0, true⟩ := rfl
@[simp] theorem hardwareReset_smp (s : State) : (hardwareReset s).smp = SampleRegs.initial true := rfl
@[simp] theorem hardwareReset_result (s : State) : (hardwareReset s).result = ⟨Dur.zero, true⟩ := rfl
@[simp] theorem hardwareReset_trk (s : State) : (hardwareReset s).trk = Tracker.fresh s.trk.n := rfl
@[simp] theorem hardwareReset_py (s : State) : (hardwareReset s).py = [] := rfl
@[simp] theorem hardwareReset_pu (s : State) : (hardwareReset s).pu = [] := rfl
@[simp] theorem hardwareReset_pv (s : State) : (hardwareReset s).pv = [] := rfl
@[simp] theorem hardwareReset_fb0 (s : State) : (hardwareReset s).fb0 = [] := rfl
@[simp] theorem hardwareReset_fb1 (s : State) : (hardwareReset s).fb1 = [] := rfl
@[simp] theorem hardwareReset_cap (s : State) : (hardwareReset s).cap = s.cap := rfl
@[simp] theorem hardwareReset_faultMark (s : State) : (hardwareReset s).faultMark = none := rfl
@[simp] theorem hardwareReset_timeNext (s : State) : (hardwareReset s).timeNext = s.timeNext := rfl
@[simp] theorem hardwareReset_draws (s : State) : (hardwareReset s).draws = s.draws := rfl
@[simp] theorem hardwareReset_host (s : State) : (hardwareReset s).host = s.host := rfl

/-! ## Register cells -/

@[simp] theorem RegCell.set_val {α : Type} (v : α) : (RegCell.set v).val = v := rfl
@[simp] theorem RegCell.set_written {α : Type} (v : α) : (RegCell.set v).written = true := rfl

end Sys2Proof.Machine
end

