-- ==== Sys2Proof/Laws/Commands.lean ====
section
/-! SUPPORT. What ends a command: the conditions in order, when a command completes, and with what. Proofs
cite these lemmas instead of unfolding the meanings. -/

namespace Sys2Proof.Machine

theorem firstFault_eq_none (l : List (Option Fault)) :
    firstFault l = none ↔ ∀ c ∈ l, c = none := by
  induction l with
  | nil => simp [firstFault]
  | cons c l ih => cases c <;> simp [firstFault, ih]

@[simp] theorem firstFault_none_cons (l : List (Option Fault)) :
    firstFault (none :: l) = firstFault l := rfl

@[simp] theorem firstFault_some_cons (f : Fault) (l : List (Option Fault)) :
    firstFault (some f :: l) = some f := rfl

/-- A command answers a next state exactly when no condition fails, and then the one it computes. -/
theorem finish_eq_next {f : Option Fault} {t u : State} :
    finish f t = .next u ↔ f = none ∧ u = t := by
  cases f <;> simp [finish, eq_comm]

theorem finish_eq_fault {f : Option Fault} {t : State} {e : Fault} :
    finish f t = .fault e ↔ f = some e := by
  cases f <;> simp [finish]

theorem finish_ne_refused (f : Option Fault) (t : State) (r : Refusal) :
    finish f t ≠ .refused r := by
  cases f <;> simp [finish]

theorem registerFault_eq_none {α : Type} (c : RegCell α) (r : RegName) :
    registerFault c r = none ↔ c.written = true := by
  unfold registerFault
  split_ifs with h <;> simp [h]

theorem cscRegisterFault_eq_none (s : State) : cscRegisterFault s = none ↔ cscWritten s = true := by
  simp [cscRegisterFault, firstFault_eq_none, registerFault_eq_none, cscWritten, and_assoc]

theorem dimensionFault_eq_none (s : State) : dimensionFault s = none ↔ dimensionsWritten s = true := by
  simp [dimensionFault, firstFault_eq_none, registerFault_eq_none, dimensionsWritten]

theorem sampleFault_eq_none (s : State) : sampleFault s = none ↔ samplesWritten s = true := by
  simp [sampleFault, firstFault_eq_none, registerFault_eq_none, samplesWritten, and_assoc]

theorem factorFault_eq_none (s : State) : factorFault s = none ↔ 1 ≤ factor s := by
  unfold factorFault
  split_ifs with h
  · simp [h]
  · simp; omega

theorem bufferFault_eq_none (s : State) (n : Nat) : bufferFault s n = none ↔ n ≤ s.cap.fbWords := by
  unfold bufferFault
  split_ifs with h <;> simp <;> omega

theorem planeIndexFault_eq_none (s : State) (p : Plane) (i : Nat) :
    planeIndexFault s p i = none ↔ i < planeCapacity s p := by
  unfold planeIndexFault
  split_ifs with h <;> simp [h]

theorem byteFault_eq_none (s : State) (p : Plane) (i : Nat) :
    byteFault s p i = none ↔ (Memory.read (plane s p) i).isSome = true := by
  unfold byteFault
  split <;> simp [*]

theorem wordFault_eq_none (s : State) (i : Nat) :
    wordFault s i = none ↔ (Memory.read s.fb0 i).isSome = true := by
  unfold wordFault
  split <;> simp [*]

/-- Row-major numbering: the pixel `(x, y)` of a buffer of width `w` is number `y·w + x`. -/
theorem pixel_number {w h x y : Nat} (hx : x < w) (hy : y < h) :
    y * w + x < w * h ∧ (y * w + x) % w = x ∧ (y * w + x) / w = y := by
  have hw : 0 < w := by omega
  refine ⟨?_, ?_, ?_⟩
  · calc y * w + x < y * w + w := by omega
      _ = (y + 1) * w := by ring
      _ ≤ h * w := Nat.mul_le_mul_right w hy
      _ = w * h := Nat.mul_comm h w
  · rw [Nat.add_comm, Nat.add_mul_mod_self_right, Nat.mod_eq_of_lt hx]
  · rw [Nat.add_comm, Nat.add_mul_div_right x y hw, Nat.div_eq_of_lt hx, Nat.zero_add]

/-- Every number below `w·h` is the number of a pixel. -/
theorem pixel_of_number {w h i : Nat} (hi : i < w * h) :
    i % w < w ∧ i / w < h ∧ i / w * w + i % w = i := by
  have hw : 0 < w := by
    rcases Nat.eq_zero_or_pos w with h0 | h0
    · simp [h0] at hi
    · exact h0
  exact ⟨Nat.mod_lt _ hw, Nat.div_lt_of_lt_mul hi, Nat.div_add_mod' i w⟩

theorem firstPixelFault_eq_none (w h : Nat) (c : Nat → Nat → Option Fault) :
    firstPixelFault w h c = none ↔ ∀ y < h, ∀ x < w, c x y = none := by
  unfold firstPixelFault
  rw [List.findSome?_eq_none_iff]
  constructor
  · intro H y hy x hx
    obtain ⟨h₁, h₂, h₃⟩ := pixel_number hx hy
    simpa [h₂, h₃] using H _ (List.mem_range.mpr h₁)
  · intro H i hi
    obtain ⟨h₁, h₂, _⟩ := pixel_of_number (List.mem_range.mp hi)
    exact H _ h₂ _ h₁

theorem pixelIndexFault_eq_none (s : State) (dx dy : Nat) :
    pixelIndexFault s dx dy = none ↔ IndicesInRange s dx dy := by
  simp [pixelIndexFault, firstFault_eq_none, planeIndexFault_eq_none, planeCapacity]

theorem pixelByteFault_eq_none (s : State) (dx dy : Nat) :
    pixelByteFault s dx dy = none ↔ SamplesPresent s dx dy := by
  simp [pixelByteFault, firstFault_eq_none, byteFault_eq_none, plane]

/-- `CONVERT` has no failing condition exactly when its preconditions hold. -/
theorem convertFault_eq_none (s : State) : convertFault s = none ↔ ConvertReady s := by
  unfold convertFault
  rw [firstFault_eq_none]
  simp only [List.mem_cons, List.not_mem_nil, or_false, forall_eq_or_imp, forall_eq,
    cscRegisterFault_eq_none, factorFault_eq_none, bufferFault_eq_none, firstPixelFault_eq_none,
    pixelIndexFault_eq_none, pixelByteFault_eq_none]
  constructor
  · rintro ⟨h₁, h₂, h₃, h₄, h₅⟩
    exact ⟨h₁, h₂, h₃, fun y hy x hx => ⟨h₄ y hy x hx, h₅ y hy x hx⟩⟩
  · rintro ⟨h₁, h₂, h₃, h₄⟩
    exact ⟨h₁, h₂, h₃, fun y hy x hx => (h₄ y hy x hx).1, fun y hy x hx => (h₄ y hy x hx).2⟩

/-! ## The reads of a filter (42_convolution_filter_bank R129) -/

theorem interior_iff {r w h x y : Nat} :
    interior r w h x y = true ↔ r ≤ x ∧ x + r < w ∧ r ≤ y ∧ y + r < h := by
  simp [interior, and_assoc]

theorem mem_neighbourhood {r w x y k : Nat} :
    k ∈ neighbourhood r w x y ↔
      ∃ ky < 2 * r + 1, ∃ kx < 2 * r + 1, (y + ky - r) * w + (x + kx - r) = k := by
  simp [neighbourhood]

/-- No index outside the buffer is formed. -/
theorem mem_readOrder_lt {r w h k : Nat} (hk : k ∈ readOrder r w h) : k < w * h := by
  obtain ⟨i, hi, hk⟩ := List.mem_flatMap.mp hk
  have hi := List.mem_range.mp hi
  unfold pixelReads at hk
  split_ifs at hk with hc
  · obtain ⟨h₁, h₂, h₃, h₄⟩ := interior_iff.mp hc
    obtain ⟨ky, hky, kx, hkx, rfl⟩ := mem_neighbourhood.mp hk
    exact (pixel_number (w := w) (h := h) (x := i % w + kx - r) (y := i / w + ky - r)
      (by omega) (by omega)).1
  · rw [List.mem_singleton.mp hk]
    exact hi

/-- Every word of the buffer is read. -/
theorem readOrder_covers {r w h i : Nat} (hi : i < w * h) : i ∈ readOrder r w h := by
  refine List.mem_flatMap.mpr ⟨i, List.mem_range.mpr hi, ?_⟩
  unfold pixelReads
  split_ifs with hc
  · refine mem_neighbourhood.mpr ⟨r, by omega, r, by omega, ?_⟩
    rw [Nat.add_sub_cancel, Nat.add_sub_cancel]
    exact (pixel_of_number hi).2.2
  · exact List.mem_singleton.mpr rfl

/-- A filter has no failing condition exactly when its preconditions hold, whatever its radius. -/
theorem filterFault_eq_none (r : Nat) (s : State) : filterFault r s = none ↔ FilterReady s := by
  unfold filterFault
  rw [firstFault_eq_none]
  simp only [List.mem_cons, List.not_mem_nil, or_false, forall_eq_or_imp, forall_eq,
    dimensionFault_eq_none, bufferFault_eq_none, List.findSome?_eq_none_iff, wordFault_eq_none]
  constructor
  · rintro ⟨h₁, h₂, h₃⟩
    exact ⟨h₁, h₂, fun i hi => h₃ i (readOrder_covers hi)⟩
  · rintro ⟨h₁, h₂, h₃⟩
    exact ⟨h₁, h₂, fun k hk => h₃ k (mem_readOrder_lt hk)⟩

/-! ## When a command completes, and with what -/

theorem execConvert_eq_next {m : Nat} {s t : State} :
    execConvert m s = .next t ↔ ConvertReady s ∧ t = convertResult s := by
  unfold execConvert
  rw [finish_eq_next, convertFault_eq_none]

theorem runFilter_eq_next {r : Nat} {out : State → Nat → Nat → Pixel} {s t : State} :
    runFilter r out s = .next t ↔ FilterReady s ∧ t = filterResult out s := by
  unfold runFilter
  rw [finish_eq_next, filterFault_eq_none]

theorem execTrkRecord_eq_next {m : Nat} {s t : State} :
    execTrkRecord m s = .next t ↔ samplesWritten s = true ∧ t = recordResult s := by
  unfold execTrkRecord
  rw [finish_eq_next, sampleFault_eq_none]

/-! ## The command behind each constructor, and when it completes -/

theorem exec_convert_eq_next {m : Nat} {s t : State} :
    exec (.convert m) s = .next t ↔ ConvertReady s ∧ t = convertResult s :=
  execConvert_eq_next (m := m)

theorem exec_filtNoop_eq_next {m : Nat} {s t : State} :
    exec (.filtNoop m) s = .next t ↔ FilterReady s ∧ t = filterResult outNoop s := runFilter_eq_next

theorem exec_filtGray_eq_next {m : Nat} {s t : State} :
    exec (.filtGray m) s = .next t ↔ FilterReady s ∧ t = filterResult outGray s := runFilter_eq_next

theorem exec_filtEdge_eq_next {m : Nat} {s t : State} :
    exec (.filtEdge m) s = .next t ↔ FilterReady s ∧ t = filterResult outEdge s := runFilter_eq_next

theorem exec_filtBlur_eq_next {m : Nat} {s t : State} :
    exec (.filtBlur m) s = .next t ↔ FilterReady s ∧ t = filterResult (outConvolution blurKernel) s :=
  runFilter_eq_next

theorem exec_filtSharpen_eq_next {m : Nat} {s t : State} :
    exec (.filtSharpen m) s = .next t ↔
      FilterReady s ∧ t = filterResult (outConvolution sharpenKernel) s :=
  runFilter_eq_next

theorem exec_filtEmboss_eq_next {m : Nat} {s t : State} :
    exec (.filtEmboss m) s = .next t ↔
      FilterReady s ∧ t = filterResult (outConvolution embossKernel) s :=
  runFilter_eq_next

theorem exec_trkRecord_eq_next {m : Nat} {s t : State} :
    exec (.trkRecord m) s = .next t ↔ samplesWritten s = true ∧ t = recordResult s :=
  execTrkRecord_eq_next (m := m)

/-- The six filters are the frame of 41_point_filter_unit R100 with a radius and an output function. -/
theorem exec_filter {m : Nat} {i : Instr}
    (h : i ∈ [Instr.filtNoop m, .filtGray m, .filtEdge m, .filtBlur m, .filtSharpen m, .filtEmboss m]) :
    ∃ r out, ∀ s, exec i s = runFilter r out s := by
  simp only [List.mem_cons, List.not_mem_nil, or_false] at h
  rcases h with rfl | rfl | rfl | rfl | rfl | rfl <;> exact ⟨_, _, fun _ => rfl⟩

/-- A pixel of the buffer a filter has written. -/
theorem read_filterResult (out : State → Nat → Nat → Pixel) (s : State) {x y : Nat}
    (hx : x < inWidth s) (hy : y < inHeight s) :
    Memory.read (filterResult out s).fb1 (y * inWidth s + x) = some (out s x y) := by
  obtain ⟨h₁, h₂, h₃⟩ := pixel_number hx hy
  simp [Memory.read_fill, h₁, h₂, h₃]

/-- A pixel of the buffer `CONVERT` has written. -/
theorem read_convertResult (s : State) {x y : Nat} (hx : x < outWidth s) (hy : y < outHeight s) :
    Memory.read (convertResult s).fb0 (y * outWidth s + x) = some (convertPixel s x y) := by
  obtain ⟨h₁, h₂, h₃⟩ := pixel_number hx hy
  simp [Memory.read_fill, h₁, h₂, h₃]

theorem srcPixel_eq {s : State} {x y : Nat} {p : Pixel}
    (h : Memory.read s.fb0 (y * inWidth s + x) = some p) : srcPixel s x y = p := by
  simp [srcPixel, h]

theorem byteAt_eq {m : List Host.Cell} {i : Nat} {b : Byte} (h : Memory.read m i = some b) :
    byteAt m i = b := by
  simp [byteAt, h]

/-- The outcome of a frame-rate query: only `RESULT` and the count of draws can differ. -/
theorem framerateResult_frame (s : State) :
    framerateResult s =
      { s with result := (framerateResult s).result, draws := (framerateResult s).draws } := by
  unfold framerateResult
  split_ifs <;> rfl

/-- The outcome of an average query: only `RESULT` can differ. -/
theorem averageResult_frame (d : Slot → Dur) (s : State) :
    averageResult d s = { s with result := (averageResult d s).result } := by
  unfold averageResult
  split_ifs <;> rfl

/-- Everything a command can do: which of the results a next state is. -/
theorem exec_eq_next {i : Instr} {s t : State} (h : exec i s = .next t) :
    (ConvertReady s ∧ t = convertResult s) ∨
    (FilterReady s ∧ ∃ out, t = filterResult out s) ∨
    (samplesWritten s = true ∧ t = recordResult s) ∨
    t = framerateResult s ∨ (∃ d, t = averageResult d s) ∨ t = trackerResetResult s := by
  cases i <;> simp only [exec, execFiltNoop, execFiltGray, execFiltEdge, execFiltBlur, execFiltSharpen,
    execFiltEmboss, runConvolution, execTrkFramerate, execTrkAverageConv, execTrkAverageFilt,
    execTrkAverageComp, execTrkAverageTotal, execTrkAverageE2e, execTrkReset, execConvert_eq_next,
    runFilter_eq_next, execTrkRecord_eq_next, Host.Outcome.next.injEq] at h
  case convert => exact .inl h
  case trkRecord => exact .inr (.inr (.inl h))
  case trkFramerate => exact .inr (.inr (.inr (.inl h.symm)))
  case trkReset => exact .inr (.inr (.inr (.inr (.inr h.symm))))
  case trkAverageConv => exact .inr (.inr (.inr (.inr (.inl ⟨_, h.symm⟩))))
  case trkAverageFilt => exact .inr (.inr (.inr (.inr (.inl ⟨_, h.symm⟩))))
  case trkAverageComp => exact .inr (.inr (.inr (.inr (.inl ⟨_, h.symm⟩))))
  case trkAverageTotal => exact .inr (.inr (.inr (.inr (.inl ⟨_, h.symm⟩))))
  case trkAverageE2e => exact .inr (.inr (.inr (.inr (.inl ⟨_, h.symm⟩))))
  all_goals exact .inr (.inl ⟨h.1, _, h.2⟩)

end Sys2Proof.Machine
end

