-- ==== Sys2Proof/Laws/Encoding.lean ====
section
/-! SUPPORT. How a word splits into the bits that take part in the match and the mode (30_encoding R61). -/

namespace Sys2Proof

/-- The mode put in place is the word's bits 13 and 12. -/
theorem modeWord_modeField (w : Word) : modeWord (modeField w) = w &&& 0x00003000#32 := by
  have hbits : ∀ i : Fin 32, (0x00003000#32).getLsbD i = (decide (i.val = 12) || decide (i.val = 13)) := by
    decide
  unfold modeWord modeField
  rw [BitVec.ofNat_toNat, BitVec.setWidth_eq]
  apply BitVec.eq_of_getLsbD_eq
  intro i hi
  rw [BitVec.getLsbD_and, hbits ⟨i, hi⟩, BitVec.getLsbD_shiftLeft, BitVec.getLsbD_setWidth,
    BitVec.getLsbD_extractLsb']
  rcases Nat.lt_or_ge i 12 with h | h
  · have h₁ : i ≠ 12 := by omega
    have h₂ : i ≠ 13 := by omega
    simp [h, h₁, h₂]
  · have e : 12 + (i - 12) = i := by omega
    rw [e]
    by_cases h₁ : i = 12
    · subst h₁; simp
    · by_cases h₂ : i = 13
      · subst h₂; simp
      · have h₃ : ¬ i - 12 < 2 := by omega
        simp [h₁, h₂, h₃]

/-- A word is its match bits or-ed with its mode. -/
theorem word_split (w : Word) : (w &&& matchMask) ||| modeWord (modeField w) = w := by
  rw [modeWord_modeField, ← BitVec.and_or_distrib_left,
    show matchMask ||| 0x00003000#32 = BitVec.allOnes 32 by decide, BitVec.and_allOnes]

theorem modeField_lt (w : Word) : modeField w < 4 := (w.extractLsb' 12 2).isLt

/-- The mode takes no part in the match. -/
theorem modeWord_masked (k : Nat) : modeWord k &&& matchMask = 0#32 := by
  unfold modeWord
  generalize BitVec.ofNat 2 k = b
  revert b
  decide

/-- The match bits of a word built from a base and a mode are those of the base. -/
theorem or_modeWord_masked (x : Word) (k : Nat) : (x ||| modeWord k) &&& matchMask = x &&& matchMask := by
  rw [BitVec.and_comm, BitVec.and_or_distrib_left, BitVec.and_comm matchMask (modeWord k),
    modeWord_masked, BitVec.and_comm]
  simp

/-- The mode field of a mode put in place. -/
theorem modeField_modeWord {k : Nat} (hk : k < 4) : modeField (modeWord k) = k := by
  interval_cases k <;> decide

/-- The mode field of a word built from a base without mode bits. -/
theorem modeField_or {x : Word} {k : Nat} (hx : modeField x = 0) (hk : k < 4) :
    modeField (x ||| modeWord k) = k := by
  have h : (x ||| modeWord k).extractLsb' 12 2 = x.extractLsb' 12 2 ||| (modeWord k).extractLsb' 12 2 :=
    BitVec.extractLsb'_or
  have h0 : x.extractLsb' 12 2 = 0#2 := BitVec.eq_of_toNat_eq (by simpa [modeField] using hx)
  unfold modeField
  rw [h, h0, BitVec.zero_or]
  exact modeField_modeWord hk

/-- What decodes to a command is the word of its row with its mode (30_encoding R61, R67). -/
theorem decode_eq_instr {w : Word} {i : Instr} (h : decode w = .instr i) :
    baseWord i = w &&& matchMask ∧ i.mode = modeField w := by
  unfold decode at h
  simp only at h
  iterate 15
    rcases Decidable.em (w &&& matchMask = _) with hm | hm
    · rw [if_pos hm] at h
      cases h
      exact ⟨by rw [hm]; simp only [baseWord]; decide, rfl⟩
    rw [if_neg hm] at h
    clear hm
  exact absurd h (by simp)

/-- The word of a row with its mode decodes to that row (30_encoding R61, R67). -/
theorem decode_of_row {w : Word} {i : Instr} (h : baseWord i = w &&& matchMask)
    (hm : i.mode = modeField w) : decode w = .instr i := by
  unfold decode
  simp only [← h, ← hm]
  cases i <;> simp [baseWord, rowWord, Instr.mode]

/-- A row and a mode determine the command. -/
theorem baseWord_injective {i j : Instr} (h : baseWord i = baseWord j) (hm : i.mode = j.mode) : i = j := by
  cases i <;> cases j <;> simp only [Instr.mode] at hm <;> subst hm <;>
    first
    | rfl
    | exact absurd h (by simp only [baseWord]; decide)

end Sys2Proof
end

