-- ==== Sys2Proof/Laws/Filters.lean ====
section
/-! SUPPORT. The output of a filter by pixel number, the order of its reads, and kernel sums. -/

namespace Sys2Proof.Machine

/-- Word `i` of the buffer a filter has written. -/
theorem read_filterResult_number (out : State → Nat → Nat → Pixel) (s : State) {i : Nat}
    (hi : i < inWidth s * inHeight s) :
    Memory.read (filterResult out s).fb1 i = some (out s (i % inWidth s) (i / inWidth s)) := by
  simp [Memory.read_fill, hi]

/-- The source pixel with number `i`. -/
theorem srcPixel_number {s : State} {i : Nat} {p : Pixel} (hi : i < inWidth s * inHeight s)
    (h : Memory.read s.fb0 i = some p) : srcPixel s (i % inWidth s) (i / inWidth s) = p := by
  apply srcPixel_eq
  rw [(pixel_of_number hi).2.2]
  exact h

theorem interior_eq_false {r w h x y : Nat} (hb : ¬ (r ≤ x ∧ x + r < w ∧ r ≤ y ∧ y + r < h)) :
    interior r w h x y = false := by
  rw [Bool.eq_false_iff]
  exact fun hc => hb (interior_iff.mp hc)

/-- A frame not larger than the kernel's radius on both sides has no interior. -/
theorem interior_eq_false_of_small {r w h : Nat} (hs : w ≤ 2 * r ∨ h ≤ 2 * r) (x y : Nat) :
    interior r w h x y = false := interior_eq_false (by omega)

/-- A filter of radius 0 reads each word once, in order. -/
theorem pixelReads_zero {w h i : Nat} (hi : i < w * h) : pixelReads 0 w h i = [i] := by
  unfold pixelReads
  split_ifs
  · simp [neighbourhood, (pixel_of_number hi).2.2]
  · rfl

/-- Without an interior the order of the reads is that of radius 0. -/
theorem readOrder_of_small {r w h : Nat} (hs : w ≤ 2 * r ∨ h ≤ 2 * r) : readOrder r w h = readOrder 0 w h := by
  unfold readOrder
  simp only [List.flatMap_def]
  congr 1
  apply List.map_congr_left
  intro i hi
  rw [pixelReads_zero (List.mem_range.mp hi)]
  simp [pixelReads, interior_eq_false_of_small hs]

/-- The first failing condition over `0 .. n-1`: the one at `k`, if none fails before it. -/
theorem findSome_range_first {β : Type} {n k : Nat} {c : Nat → Option β} {f : β} (hk : k < n)
    (before : ∀ j < k, c j = none) (here : c k = some f) : (List.range n).findSome? c = some f := by
  obtain ⟨d, rfl⟩ : ∃ d, n = k + 1 + d := ⟨n - k - 1, by omega⟩
  rw [List.range_add, List.range_succ, List.append_assoc, List.findSome?_append,
    List.findSome?_eq_none_iff.mpr fun j hj => before j (List.mem_range.mp hj)]
  simp [here]

/-- A condition over a list of lists is met first in the first list that meets it. -/
theorem findSome_flatMap {α β γ : Type} (l : List α) (f : α → List β) (c : β → Option γ) :
    (l.flatMap f).findSome? c = l.findSome? fun a => (f a).findSome? c := by
  induction l with
  | nil => rfl
  | cons a l ih =>
    rw [List.flatMap_cons, List.findSome?_append, ih, List.findSome?_cons]
    cases (f a).findSome? c <;> rfl

/-- The fault of a filter's reads, pixel by pixel, and row by row of a neighbourhood. -/
theorem readOrder_findSome (r w h : Nat) (c : Nat → Option Fault) :
    (readOrder r w h).findSome? c = (List.range (w * h)).findSome? fun i => (pixelReads r w h i).findSome? c :=
  findSome_flatMap _ _ _

theorem neighbourhood_findSome (r w x y : Nat) (c : Nat → Option Fault) :
    (neighbourhood r w x y).findSome? c =
      (List.range (2 * r + 1)).findSome? fun ky => (List.range (2 * r + 1)).findSome? fun kx =>
        c ((y + ky - r) * w + (x + kx - r)) := by
  unfold neighbourhood
  rw [findSome_flatMap]
  simp only [List.findSome?_map, Function.comp_def]

theorem sumRange_eq (n : Nat) (f : Nat → Int) : sumRange n f = ∑ i ∈ Finset.range n, f i := by
  unfold sumRange
  induction n with
  | zero => simp
  | succ n ih => rw [List.range_succ, Finset.sum_range_succ]; simp [ih]

/-- The weight of a kernel given by a weight function. -/
theorem kernelWeight_rows (n : Nat) (w : Nat → Nat → Int) (d b : Int) {ky kx : Nat} (hy : ky < n)
    (hx : kx < n) : kernelWeight ⟨n, kernelRows n w, d, b⟩ ky kx = w ky kx := by
  simp [kernelWeight, kernelRows, List.getD_eq_getElem?_getD, hy, hx]

end Sys2Proof.Machine
end

