-- ==== Sys2Proof/Laws/Step.lean ====
section
/-! SUPPORT. What a host action and a step can do, once; invariants are proved from these. -/

namespace Sys2Proof.Machine

/-- A write to `CMD` that answers a next state is the command the word decodes to. -/
theorem issue_eq_next {w : Word} {s t : State} (h : issue w s = .next t) :
    ∃ i, decode w = .instr i ∧ exec i s = .next t := by
  unfold issue at h
  split at h
  · exact ⟨_, ‹_›, h⟩
  · exact absurd h (by simp)

/-- A write of a word to a register: a command, or a change of the operand registers, the input
dimensions or the samples alone. -/
theorem writeWord_eq_next {r : RegName} {v : Word} {s t : State} (h : writeWord r v s = .next t) :
    (r = .cmd ∧ issue v s = .next t) ∨
    ∃ c d e m, t = { s with csc := c, fb0W := d, fb0H := e, smp := m } := by
  cases r <;> simp only [writeWord, writeSample, Host.Outcome.next.injEq] at h
  case cmd => exact .inl ⟨rfl, h⟩
  all_goals exact .inr ⟨_, _, _, _, h.symm⟩

theorem writeDur_eq_next {r : RegName} {d : Dur} {s t : State} (h : writeDur r d s = .next t) :
    ∃ m, t = { s with smp := m } := by
  cases r <;> simp only [writeDur, writeSample, Host.Outcome.next.injEq, reduceCtorEq] at h
  all_goals exact ⟨_, h.symm⟩

theorem readRegister_eq_next {r : RegName} {s t : State} (h : readRegister r s = .next t) :
    ∃ v, t = observe s v := by
  cases r <;> simp only [readRegister, readCell, reduceCtorEq] at h
  all_goals
    split_ifs at h
    exact ⟨_, (Host.Outcome.next.inj h).symm⟩

theorem hostStoreByte_eq_next {p : Plane} {i : Nat} {v : Byte} {s t : State}
    (h : hostStoreByte p i v s = .next t) : i < planeCapacity s p ∧ t = storeByte s p i v := by
  unfold hostStoreByte at h
  split_ifs at h with hi
  exact ⟨hi, (Host.Outcome.next.inj h).symm⟩

theorem hostStoreWord_eq_next {b : Buffer} {i : Nat} {v : Pixel} {s t : State}
    (h : hostStoreWord b i v s = .next t) :
    b = .fb0 ∧ i < s.cap.fbWords ∧ t = { s with fb0 := Memory.write s.fb0 i v } := by
  cases b <;> simp only [hostStoreWord, reduceCtorEq] at h
  split_ifs at h with hi
  exact ⟨rfl, hi, (Host.Outcome.next.inj h).symm⟩

theorem hostLoadByte_eq_next {p : Plane} {i : Nat} {s t : State}
    (h : hostLoadByte p i s = .next t) : ∃ v, t = observe s v := by
  unfold hostLoadByte at h
  split_ifs at h
  split at h
  · exact ⟨_, (Host.Outcome.next.inj h).symm⟩
  · exact absurd h (by simp)

theorem hostLoadWord_eq_next {b : Buffer} {i : Nat} {s t : State}
    (h : hostLoadWord b i s = .next t) : ∃ v, t = observe s v := by
  unfold hostLoadWord at h
  split_ifs at h
  split at h
  · exact ⟨_, (Host.Outcome.next.inj h).symm⟩
  · exact absurd h (by simp)

/-- Everything a host action can do when it answers a next state. -/
theorem perform_eq_next {a : HostAction} {s t : State} (h : perform a s = .next t) :
    (∃ v i, a = .wr 0 v ∧ decode v = .instr i ∧ exec i s = .next t) ∨
    (∃ c d e m, t = { s with csc := c, fb0W := d, fb0H := e, smp := m }) ∨
    (∃ p i v, a = .stByte p i v ∧ i < planeCapacity s p ∧ t = storeByte s p i v) ∨
    (∃ i v, a = .stWord .fb0 i v ∧ i < s.cap.fbWords ∧ t = { s with fb0 := Memory.write s.fb0 i v }) ∨
    (∃ v, t = observe s v) ∨ (∃ d, t = { s with timeNext := some d }) ∨
    (a = .reset ∧ t = hardwareReset s) := by
  cases a with
  | wr n v =>
    simp only [perform] at h
    split at h
    case h_2 => exact absurd h (by simp)
    case h_1 r hr =>
      rcases writeWord_eq_next h with ⟨rfl, h⟩ | h
      · obtain ⟨i, hi, he⟩ := issue_eq_next h
        have hn : n = 0 := by
          unfold registerOf at hr
          split at hr <;> first | rfl | exact absurd hr (by simp)
        exact .inl ⟨v, i, by rw [hn], hi, he⟩
      · exact .inr (.inl h)
  | wrDur n d =>
    simp only [perform] at h
    split at h
    case h_2 => exact absurd h (by simp)
    case h_1 r _ =>
      obtain ⟨m, rfl⟩ := writeDur_eq_next h
      exact .inr (.inl ⟨_, _, _, m, rfl⟩)
  | rd n =>
    simp only [perform] at h
    split at h
    case h_2 => exact absurd h (by simp)
    case h_1 r _ => exact .inr (.inr (.inr (.inr (.inl (readRegister_eq_next h)))))
  | stByte p i v =>
    obtain ⟨hi, ht⟩ := hostStoreByte_eq_next h
    exact .inr (.inr (.inl ⟨p, i, v, rfl, hi, ht⟩))
  | stWord b i v =>
    obtain ⟨rfl, hi, ht⟩ := hostStoreWord_eq_next h
    exact .inr (.inr (.inr (.inl ⟨i, v, rfl, hi, ht⟩)))
  | ldByte p i => exact .inr (.inr (.inr (.inr (.inl (hostLoadByte_eq_next h)))))
  | ldWord b i => exact .inr (.inr (.inr (.inr (.inl (hostLoadWord_eq_next h)))))
  | time d => exact .inr (.inr (.inr (.inr (.inr (.inl ⟨d, (Host.Outcome.next.inj h).symm⟩)))))
  | reset => exact .inr (.inr (.inr (.inr (.inr (.inr ⟨rfl, (Host.Outcome.next.inj h).symm⟩)))))

theorem thenAdvance_eq_next {o : Host.Outcome State Fault Refusal} {t : State} :
    thenAdvance o = .next t ↔ ∃ u, o = .next u ∧ t = advanceHost u := by
  cases o <;> simp [thenAdvance, eq_comm]

theorem thenAdvance_eq_fault {o : Host.Outcome State Fault Refusal} {f : Fault} :
    thenAdvance o = .fault f ↔ o = .fault f := by
  cases o <;> simp [thenAdvance]

/-- A step of a machine without a recorded fault performs the next action. -/
theorem step_of_action {s : State} {a : HostAction} {rest : List HostAction}
    (hm : s.faultMark = none) (h : s.host.todo = a :: rest) : step s = thenAdvance (perform a s) := by
  unfold step hostStep
  rw [h]
  cases a <;> simp [hm]

/-- Everything a step can do when it answers a next state: nothing (idle), or the next action; with a
recorded fault that action is the hardware reset. -/
theorem step_eq_next {s t : State} (h : step s = .next t) :
    (s.host.todo = [] ∧ s.faultMark = none ∧ t = s) ∨
    ∃ a rest u, s.host.todo = a :: rest ∧ (s.faultMark = none ∨ a = .reset) ∧
      perform a s = .next u ∧ t = advanceHost u := by
  cases hl : s.host.todo with
  | nil =>
    unfold step hostStep at h
    rw [hl] at h
    simp only at h
    split at h
    · exact absurd h (by simp)
    · exact .inl ⟨rfl, ‹_›, (Host.Outcome.next.inj h).symm⟩
  | cons a rest =>
    refine .inr ⟨a, rest, ?_⟩
    cases hm : s.faultMark with
    | none =>
      rw [step_of_action hm hl, thenAdvance_eq_next] at h
      obtain ⟨u, hu, ht⟩ := h
      exact ⟨u, rfl, .inl rfl, hu, ht⟩
    | some f =>
      unfold step hostStep at h
      rw [hl] at h
      cases a <;> simp [hm] at h
      case reset =>
        obtain ⟨u, hu, ht⟩ := thenAdvance_eq_next.mp h
        exact ⟨u, rfl, .inr rfl, hu, ht⟩

end Sys2Proof.Machine
end

