-- ==== Sys2Proof/Laws/HostPort.lean ====
section
/-! SUPPORT. Small lemmas of the host port: register numbers, reads of a cell. -/

namespace Sys2Proof.Machine

/-- The host's record tells two values apart. -/
@[simp] theorem observe_inj {s : State} {a b : Observed} : observe s a = observe s b ↔ a = b := by
  constructor
  · intro h
    have := congrArg (fun s => s.host.seen) h
    simpa [observe] using this
  · rintro rfl
    rfl

/-- Register numbers 20 and above do not exist (20_memory R57). -/
theorem registerOf_eq_none {n : Nat} (h : 20 ≤ n) : registerOf n = none := by
  unfold registerOf
  split <;> first | omega | rfl

/-- What a host read of a cell answers: the cell's value, if it is written. -/
@[simp] theorem readCell_eq_next {α : Type} {c : RegCell α} {r : RegName} {form : α → Observed} {s : State}
    {o : Observed} : readCell c r form s = .next (observe s o) ↔ c.written = true ∧ form c.val = o := by
  unfold readCell
  split_ifs with h <;> simp [h]

end Sys2Proof.Machine
end

