-- ==== Sys2Proof/Laws/Invariants.lean ====
section
/-! SUPPORT. What an invariant of the machine has to survive, packaged once. -/

namespace Sys2Proof.Machine

/-- A property of states that each of the eleven changes a step can make keeps is kept by every step. -/
theorem step_keeps (P : State → Prop) (convert : ∀ s, P s → ConvertReady s → P (convertResult s))
    (filter : ∀ s out, P s → FilterReady s → P (filterResult out s))
    (record : ∀ s, P s → P (recordResult s))
    (query : ∀ s r d, P s → P { s with result := r, draws := d })
    (clear : ∀ s, P s → P (trackerResetResult s))
    (operand : ∀ s c d e m, P s → P { s with csc := c, fb0W := d, fb0H := e, smp := m })
    (byte : ∀ s p i v, P s → i < planeCapacity s p → P (storeByte s p i v))
    (word : ∀ s i v, P s → i < s.cap.fbWords → P { s with fb0 := Memory.write s.fb0 i v })
    (host : ∀ s h, P s → P { s with host := h })
    (time : ∀ s d, P s → P { s with timeNext := some d })
    (reset : ∀ s, P s → P (hardwareReset s)) : ∀ s t, P s → step s = .next t → P t := by
  intro s t hp h
  rcases step_eq_next h with ⟨_, _, rfl⟩ | ⟨a, r, u, _, _, hpf, rfl⟩
  · exact hp
  apply host
  rcases perform_eq_next hpf with ⟨v, i, _, _, h⟩ | ⟨c, d, e, m, rfl⟩ | ⟨p, i, v, _, hi, rfl⟩ |
    ⟨i, v, _, hi, rfl⟩ | ⟨v, rfl⟩ | ⟨d, rfl⟩ | ⟨_, rfl⟩
  · rcases exec_eq_next h with ⟨hr, rfl⟩ | ⟨hr, o, rfl⟩ | ⟨_, rfl⟩ | rfl | ⟨d, rfl⟩ | rfl
    · exact convert s hp hr
    · exact filter s o hp hr
    · exact record s hp
    · rw [framerateResult_frame]
      exact query _ _ _ hp
    · rw [averageResult_frame]
      exact query _ _ s.draws hp
    · exact clear s hp
  · exact operand _ _ _ _ _ hp
  · exact byte _ _ _ _ hp hi
  · exact word _ _ _ hp hi
  · exact host _ _ hp
  · exact time _ _ hp
  · exact reset _ hp

end Sys2Proof.Machine
end

