-- ==== Sys2Proof/Laws/PerInstr.lean ====
section
/-! SUPPORT. One fact for every command: its word leaves the reserved fields `ZERO` and `Z` zero
(30_encoding R60). -/

namespace Sys2Proof.Laws.ReservedBits

/-- The reserved bits of the word are 0. -/
def Statement (i : Instr) : Prop := encode i &&& 0xFFFFC800#32 = 0#32

theorem modeWord_reserved (k : Nat) : modeWord k &&& 0xFFFFC800#32 = 0#32 := by
  unfold modeWord
  generalize BitVec.ofNat 2 k = b
  revert b
  decide

theorem reserved_of_base {i : Instr} (h : baseWord i &&& 0xFFFFC800#32 = 0#32) : Statement i := by
  unfold Statement encode
  rw [BitVec.and_comm, BitVec.and_or_distrib_left, BitVec.and_comm, h, BitVec.and_comm, modeWord_reserved]
  rfl

theorem convert (m : Nat) : Statement (.convert m) := reserved_of_base (by simp only [baseWord]; decide)
theorem filtNoop (m : Nat) : Statement (.filtNoop m) := reserved_of_base (by simp only [baseWord]; decide)
theorem filtGray (m : Nat) : Statement (.filtGray m) := reserved_of_base (by simp only [baseWord]; decide)
theorem filtEdge (m : Nat) : Statement (.filtEdge m) := reserved_of_base (by simp only [baseWord]; decide)
theorem filtBlur (m : Nat) : Statement (.filtBlur m) := reserved_of_base (by simp only [baseWord]; decide)
theorem filtSharpen (m : Nat) : Statement (.filtSharpen m) := reserved_of_base (by simp only [baseWord]; decide)
theorem filtEmboss (m : Nat) : Statement (.filtEmboss m) := reserved_of_base (by simp only [baseWord]; decide)
theorem trkRecord (m : Nat) : Statement (.trkRecord m) := reserved_of_base (by simp only [baseWord]; decide)
theorem trkFramerate (m : Nat) : Statement (.trkFramerate m) := reserved_of_base (by simp only [baseWord]; decide)
theorem trkAverageConv (m : Nat) : Statement (.trkAverageConv m) := reserved_of_base (by simp only [baseWord]; decide)
theorem trkAverageFilt (m : Nat) : Statement (.trkAverageFilt m) := reserved_of_base (by simp only [baseWord]; decide)
theorem trkAverageComp (m : Nat) : Statement (.trkAverageComp m) := reserved_of_base (by simp only [baseWord]; decide)
theorem trkAverageTotal (m : Nat) : Statement (.trkAverageTotal m) := reserved_of_base (by simp only [baseWord]; decide)
theorem trkAverageE2e (m : Nat) : Statement (.trkAverageE2e m) := reserved_of_base (by simp only [baseWord]; decide)
theorem trkReset (m : Nat) : Statement (.trkReset m) := reserved_of_base (by simp only [baseWord]; decide)

end Sys2Proof.Laws.ReservedBits
end

