-- ==== Sys2Proof/Laws/Tracker.lean ====
section
/-! SUPPORT. The ring as a list: what one record does to the valid window (10_state R14, R15). -/

namespace Sys2Proof.Machine

/-- Recording keeps the tracker's invariant. -/
theorem pushSlot_invariant {t : Tracker} (x : Slot) (h : TrackerInvariant t) :
    TrackerInvariant (pushSlot t x) := by
  obtain ⟨h₁, h₂, h₃, h₄, h₅⟩ := h
  refine ⟨h₁, by simpa [pushSlot] using h₂, Nat.min_le_right _ _, Nat.mod_lt _ (by omega), ?_⟩
  intro hlt
  simp only [pushSlot] at hlt ⊢
  have : t.fill + 1 < t.n := by omega
  rw [h₅ (by omega), Nat.mod_eq_of_lt this]
  omega

/-- Under the invariant the `i`-th valid slot is plain `i` before the ring has wrapped, and runs on from
`pos` once it has. -/
theorem validSlot_eq {t : Tracker} (h : TrackerInvariant t) {i : Nat} (hi : i < t.fill) :
    validSlot t i = if t.fill < t.n then i else (t.pos + i) % t.n := by
  obtain ⟨h₁, _, h₃, h₄, h₅⟩ := h
  unfold validSlot
  split_ifs with hf
  · rw [h₅ hf]
    have : ((t.fill : Int) - t.fill + i) = ((i : Nat) : Int) := by ring
    rw [this]
    rw [← Int.natCast_emod, Int.toNat_natCast, Nat.mod_eq_of_lt (by omega)]
  · have hn : t.fill = t.n := by omega
    rw [hn]
    have : ((t.pos : Int) - t.n + i) % t.n = (((t.pos + i : Nat)) : Int) % t.n := by
      have e : ((t.pos : Int) - t.n + i) = ((t.pos + i : Nat) : Int) - t.n := by push_cast; ring
      rw [e, Int.sub_emod_right]
    rw [this, ← Int.natCast_emod, Int.toNat_natCast]

theorem validSamples_length (t : Tracker) : (validSamples t).length = t.fill := by
  simp [validSamples]

theorem validSamples_getElem (t : Tracker) {i : Nat} (hi : i < (validSamples t).length) :
    (validSamples t)[i] = slotAt t (validSlot t i) := by
  simp [validSamples]

theorem slotAt_push_same {t : Tracker} (x : Slot) (h : t.pos < t.ring.length) :
    slotAt (pushSlot t x) t.pos = x := by
  simp [slotAt, pushSlot, List.getD_eq_getElem?_getD, h]

theorem slotAt_push_other {t : Tracker} (x : Slot) {k : Nat} (h : k ≠ t.pos) :
    slotAt (pushSlot t x) k = slotAt t k := by
  simp [slotAt, pushSlot, List.getD_eq_getElem?_getD, List.getElem?_set_ne (Ne.symm h)]

/-- Recording appends to the valid window and, once the ring is full, drops the oldest (10_state R15). -/
theorem validSamples_push {t : Tracker} (x : Slot) (h : TrackerInvariant t) :
    validSamples (pushSlot t x) =
      (if t.fill < t.n then validSamples t else (validSamples t).tail) ++ [x] := by
  have hp := pushSlot_invariant x h
  obtain ⟨h₁, h₂, h₃, h₄, h₅⟩ := h
  have hfill : (pushSlot t x).fill = min (t.fill + 1) t.n := rfl
  have hn : (pushSlot t x).n = t.n := rfl
  have hpos : (pushSlot t x).pos = (t.pos + 1) % t.n := rfl
  apply List.ext_getElem
  · rw [validSamples_length, hfill]
    split_ifs with hf <;> simp [validSamples_length] <;> omega
  · intro i hi₁ hi₂
    rw [validSamples_length, hfill] at hi₁
    rw [validSamples_getElem, validSlot_eq hp (by rw [hfill]; exact hi₁), hfill, hn, hpos]
    split_ifs with c₁ c₂ c₂
    · -- not full before, not full after
      rcases Nat.lt_or_ge i t.fill with hlt | hge
      · rw [List.getElem_append_left (by rw [validSamples_length]; exact hlt), validSamples_getElem,
          validSlot_eq ⟨h₁, h₂, h₃, h₄, h₅⟩ hlt, if_pos c₂,
          slotAt_push_other x (by rw [h₅ c₂]; omega)]
      · have : i = t.pos := by rw [h₅ c₂]; omega
        subst this
        rw [slotAt_push_same x (by omega), List.getElem_append_right (by rw [validSamples_length]; omega)]
        simp
    · exact absurd c₁ (by omega)
    · -- becomes full with this record
      have e : t.fill + 1 = t.n := by omega
      have hpf := h₅ c₂
      have hz : (t.pos + 1) % t.n = 0 := by rw [hpf, e, Nat.mod_self]
      rw [hz, Nat.zero_add, Nat.mod_eq_of_lt (by omega)]
      rcases Nat.lt_or_ge i t.fill with hlt | hge
      · rw [List.getElem_append_left (by rw [validSamples_length]; exact hlt), validSamples_getElem,
          validSlot_eq ⟨h₁, h₂, h₃, h₄, h₅⟩ hlt, if_pos c₂,
          slotAt_push_other x (by omega)]
      · have : i = t.pos := by omega
        subst this
        rw [slotAt_push_same x (by omega), List.getElem_append_right (by rw [validSamples_length]; omega)]
        simp
    · -- full before
      have e : t.fill = t.n := by omega
      rcases Nat.lt_or_ge (i + 1) t.n with hlt | hge
      · rw [List.getElem_append_left (by rw [List.length_tail, validSamples_length]; omega),
          List.getElem_tail, validSamples_getElem,
          validSlot_eq ⟨h₁, h₂, h₃, h₄, h₅⟩ (by omega), if_neg c₂]
        have e₂ : ((t.pos + 1) % t.n + i) % t.n = (t.pos + (i + 1)) % t.n := by
          rw [Nat.mod_add_mod]; congr 1; ring
        rw [e₂]
        apply slotAt_push_other
        intro hc
        have : (t.pos + (i + 1)) % t.n = t.pos % t.n := by rw [hc, Nat.mod_eq_of_lt h₄]
        have h0 : (i + 1) % t.n = 0 := by
          have := (Nat.ModEq.add_left_cancel' t.pos (show t.pos + (i + 1) ≡ t.pos + 0 [MOD t.n] from this))
          simpa [Nat.ModEq] using this
        rw [Nat.mod_eq_of_lt hlt] at h0
        omega
      · have hi : i + 1 = t.n := by omega
        have e₂ : ((t.pos + 1) % t.n + i) % t.n = t.pos := by
          rw [Nat.mod_add_mod]
          have : t.pos + 1 + i = t.pos + t.n := by omega
          rw [this, Nat.add_mod_right, Nat.mod_eq_of_lt h₄]
        rw [e₂, slotAt_push_same x (by omega),
          List.getElem_append_right (by rw [List.length_tail, validSamples_length]; omega)]
        simp

end Sys2Proof.Machine
end

