-- ==== Sys2Proof/Tests/Slice0.lean ====
section
/-! SUPPORT. Tests with expected results from 95_test_vectors (and hand calculation from the rules), the
smoke test of `WellFormed`, and for every obligation with hypotheses a witness that they can be met. -/

-- One theorem after another: many kernel evaluations at once exhaust the threads of a small machine.
set_option Elab.async false

namespace Sys2Proof.Tests

open Sys2Proof Sys2Proof.Machine

/-! ## Small states -/

/-- The capacities of 95_test_vectors. -/
def cap : Capacities := ⟨16, 16, 16, 32⟩

/-- A CORE with those capacities, `N = 3`, every register unwritten (10_state R22). -/
def bare : State := State.constructed false cap 3

/-- The same with every register at its reset value. -/
def base : State := State.constructed true cap 3

/-- Values stored from index 0 on. -/
def cells {α : Type} (l : List α) : List (Nat × α) := l.zipIdx.map fun c => (c.2, c.1)

/-- `DIMS w, h` and the words stored. -/
def loaded (w h : Nat) (l : List Pixel) : State :=
  { base with fb0W := ⟨BitVec.ofNat 32 w, true⟩, fb0H := ⟨BitVec.ofNat 32 h, true⟩, fb0 := cells l }

/-- A written register. -/
def reg (n : Nat) : RegCell Word := ⟨BitVec.ofNat 32 n, true⟩

/-- The planes of 95_test_vectors section 2.9 with factor `f` and luma row stride `yrs`. -/
def planes (f yrs : Nat) : State :=
  { base with
    csc := ⟨reg 4, reg 4, reg f, reg yrs, reg 1, reg 2, reg 1, reg 2, reg 1⟩
    py := cells [16, 32, 48, 64, 80, 96, 112, 128, 144, 160, 176, 192, 208, 224, 240, 255]
    pu := cells [128, 90, 240, 54]
    pv := cells [128, 240, 110, 34] }

/-- The same planes with zero-centred chroma. -/
def greyPlanes : State :=
  { planes 1 4 with pu := cells [128, 128, 128, 128], pv := cells [128, 128, 128, 128] }

/-- A grey pixel. -/
def g (v : Nat) : Pixel := grey (BitVec.ofNat 8 v)

/-- The five samples of a `TRK.RECORD`, as integers, and the answer of `TIME`. -/
def sampled (s : State) (a b c d e : Nat) (t : Dur) : State :=
  { s with
    smp := ⟨⟨durOfNat a, true⟩, ⟨durOfNat b, true⟩, ⟨durOfNat c, true⟩, ⟨durOfNat d, true⟩, ⟨durOfNat e, true⟩⟩
    timeNext := some t }

/-- The state of a next outcome; the given one otherwise. -/
def after (o : Host.Outcome State Fault Refusal) (s : State) : State :=
  match o with
  | .next t => t
  | .fault _ => s
  | .refused _ => s

/-- Whether the outcome is a next state. -/
def isNext (o : Host.Outcome State Fault Refusal) : Bool :=
  match o with
  | .next _ => true
  | .fault _ => false
  | .refused _ => false

/-- The fault of an outcome. -/
def faultOf (o : Host.Outcome State Fault Refusal) : Option Fault :=
  match o with
  | .next _ => none
  | .fault f => some f
  | .refused _ => none

theorem exists_next {o : Host.Outcome State Fault Refusal} (h : isNext o = true) : ∃ t, o = .next t := by
  cases o with
  | next t => exact ⟨t, rfl⟩
  | fault f => exact absurd h (by simp [isNext])
  | refused r => exact absurd h (by simp [isNext])

theorem eq_fault {o : Host.Outcome State Fault Refusal} {f : Fault} (h : faultOf o = some f) :
    o = .fault f := by
  cases o with
  | next t => exact absurd h (by simp [faultOf])
  | fault e => exact congrArg Host.Outcome.fault (Option.some.inj h)
  | refused r => exact absurd h (by simp [faultOf])

/-- One record of the tracker table of 95_test_vectors section 2.10. -/
def record (s : State) (a b c d e : Nat) (t : Dur) : State :=
  after (exec (.trkRecord 0) (sampled s a b c d e t)) s

/-- After the first two records of that table. -/
def two : State := record (record base 2 4 1 7 10 Dur.zero) 4 4 1 9 12 (Dur.ofFrac 1 10)

/-- After the first four: the first sample is overwritten. -/
def four : State := record (record two 6 1 1 8 20 (Dur.ofFrac 3 10)) 8 3 5 16 18 (Dur.ofFrac 4 10)

/-- A 4×4 frame with words 7 and 8 unwritten. -/
def gaps : State :=
  { loaded 4 4 [] with fb0 := (cells ((List.range 16).map g)).filter fun c => c.1 != 7 && c.1 != 8 }

/-- A host with one action left. -/
def having (s : State) (a : HostAction) : State := { s with host := ⟨[a], 0, []⟩ }

/-! ## WellFormed -/

theorem test_wf_admits_mode_3 : WellFormed (.filtEmboss 3) := by decide

theorem test_wf_refuses_mode_4 :
    ∀ i ∈ rowsAt 4, ¬ WellFormed i := by decide

/-! ## Decoding: words written out from the fields of 30_encoding R60, R61
(`ZERO`, `MODE`, `Z`, `ARG`, `UNIT`, `FN`) -/

theorem test_decode_convert :
    decode 0b000000000000000000_10_0_000_0000_0001#32 = .instr (.convert 2) := by decide

theorem test_decode_filt_noop :
    decode 0b000000000000000000_00_0_000_0001_0000#32 = .instr (.filtNoop 0) := by decide

theorem test_decode_filt_gray :
    decode 0b000000000000000000_01_0_000_0001_0001#32 = .instr (.filtGray 1) := by decide

theorem test_decode_filt_edge :
    decode 0b000000000000000000_00_0_000_0001_0010#32 = .instr (.filtEdge 0) := by decide

theorem test_decode_filt_blur :
    decode 0b000000000000000000_00_0_000_0001_0011#32 = .instr (.filtBlur 0) := by decide

theorem test_decode_filt_sharpen :
    decode 0b000000000000000000_00_0_000_0001_0100#32 = .instr (.filtSharpen 0) := by decide

theorem test_decode_filt_emboss :
    decode 0b000000000000000000_11_0_000_0001_0101#32 = .instr (.filtEmboss 3) := by decide

theorem test_decode_trk_record :
    decode 0b000000000000000000_00_0_000_0010_0000#32 = .instr (.trkRecord 0) := by decide

theorem test_decode_trk_framerate :
    decode 0b000000000000000000_00_0_000_0010_0001#32 = .instr (.trkFramerate 0) := by decide

theorem test_decode_trk_average_conv :
    decode 0b000000000000000000_00_0_000_0010_0010#32 = .instr (.trkAverageConv 0) := by decide

theorem test_decode_trk_average_filt :
    decode 0b000000000000000000_00_0_001_0010_0010#32 = .instr (.trkAverageFilt 0) := by decide

theorem test_decode_trk_average_comp :
    decode 0b000000000000000000_00_0_010_0010_0010#32 = .instr (.trkAverageComp 0) := by decide

theorem test_decode_trk_average_total :
    decode 0b000000000000000000_00_0_011_0010_0010#32 = .instr (.trkAverageTotal 0) := by decide

theorem test_decode_trk_average_e2e :
    decode 0b000000000000000000_11_0_100_0010_0010#32 = .instr (.trkAverageE2e 3) := by decide

theorem test_decode_trk_reset :
    decode 0b000000000000000000_00_0_000_0010_0011#32 = .instr (.trkReset 0) := by decide

/-- The illegal words of 95_test_vectors section 2.1, each under its name. -/
theorem test_decode_illegal :
    ([0x00000000, 0x00000002, 0x00000016, 0x0000001F, 0x00000024, 0x00000030, 0x00000110, 0x00000101,
      0x00000120, 0x00000522, 0x00000722, 0x00000811, 0x00004011, 0x80000001, 0xFFFFFFFF] : List Word).map decode
      = [.illegal .function, .illegal .function, .illegal .function, .illegal .function, .illegal .function,
         .illegal .unit, .illegal .argument, .illegal .argument, .illegal .argument, .illegal .argument,
         .illegal .argument, .illegal .reservedBit, .illegal .reservedBit, .illegal .reservedBit,
         .illegal .reservedBit] := by decide

/-- The count of 30_encoding R65: sixty legal words, all different. -/
theorem test_sixty_words : (allCommands.map encode).Nodup ∧ allCommands.length = 60 := by decide +kernel

/-- 30_encoding R68, R70. -/
theorem test_assemble : assemble "FILT.GRAY, m3" = some 0x00003011#32 ∧
    assemble "TRK.AVERAGE E2E" = some 0x00000422#32 ∧ assemble "TRK.AVERAGE 4, m0" = some 0x00000422#32 ∧
    assemble "TRK.AVERAGE 5" = none ∧
    pseudoPipe 5 = [.wr 0 0x00000001#32, .wr 0 0x00000015#32] := by decide +kernel

/-! ## CONVERT -/

/-- Pixels of the table of 95_test_vectors section 2.2, clamps and whole-sum truncation among them. -/
theorem test_colour : [colour 100 128 255, colour 100 0 128, colour 255 0 0, colour 0 255 255, colour 81 90 240,
    colour 132 79 156, colour 10 128 126, colour 2 128 127]
    = [0xFFFF0B64#32, 0xFF648F00#32, 0xFF4FFF21#32, 0xFFAE00DC#32, 0xFFEA0F0F#32, 0xFFAA802F#32, 0xFF070B0A#32,
       0xFF000202#32] := by decide +kernel

/-- Vector A2: downscale by 2; and F4, F5, F6: the faults of `CONVERT`. -/
theorem test_convert : (after (exec (.convert 0) (planes 2 4)) base).fb0 =
    cells [0xFF101010#32, 0xFFC90000#32, 0xFF7776FF#32, 0xFF2FFF2F#32] ∧
    faultOf (exec (.convert 0) (planes 0 4)) = some .factorZero ∧
    faultOf (exec (.convert 0) { planes 0 4 with csc := { (planes 0 4).csc with w := ⟨0, false⟩ } })
      = some (.unwritten (.reg .cscW)) ∧
    faultOf (exec (.convert 0) (planes 1 5)) = some (.planeIndex .py 16) := by decide +kernel

/-! ## Filters -/

/-- Section 2.5, and F3: the first unwritten word. -/
theorem test_noop : (after (exec (.filtNoop 0) (loaded 2 2 [0, 0x12345678#32, 0xFFFFFFFF#32, 0x80FF00FF#32])) base).fb1
      = cells [0, 0x12345678#32, 0xFFFFFFFF#32, 0x80FF00FF#32] ∧
    faultOf (exec (.filtNoop 0) (loaded 2 2 [g 0, g 0, g 0])) = some (.unwritten (.word .fb0 3)) := by decide +kernel

/-- F7: the product does not wrap; R164 item 6: the copy names the first unwritten word of `gaps`. -/
theorem test_noop_product :
    faultOf (exec (.filtNoop 0) (loaded 65536 65536 [])) = some (.bufferIndex 4294967296) ∧
    faultOf (exec (.filtNoop 0) gaps) = some (.unwritten (.word .fb0 7)) := by decide +kernel

/-- Section 2.3. -/
theorem test_gray : (after (exec (.filtGray 0) (loaded 5 1
    [0xFFFF0000#32, 0xFF00FF00#32, 0xFF0000FF#32, 0x00123456#32, 0x80FF00FF#32])) base).fb1
    = cells [0xFF4C4C4C#32, 0xFF959595#32, 0xFF1C1C1C#32, 0xFF2D2D2D#32, 0xFF696969#32] := by decide +kernel

/-- F2. -/
theorem test_gray_unwritten : faultOf (exec (.filtGray 0) bare) = some (.unwritten (.reg .fb0W)) := by decide

/-- E5 (negative gradient, colour input) and E4b (clamp). -/
theorem test_edge : (after (exec (.filtEdge 0) (loaded 3 3 [0xFF0A0000#32, 0xFF000A00#32, 0xFF00000A#32,
      0xFF141414#32, 0xFFFFFFFF#32, 0xFF030405#32, 0xFF000000#32, 0xFF090909#32, 0xFF1E140A#32])) base).fb1
      = cells [black, black, black, black, 0xFF282828#32, black, black, black, black] ∧
    Memory.read (after (exec (.filtEdge 0) (loaded 3 3 [g 0, g 0, g 0, g 0, g 0, g 64, g 0, g 63, g 1])) base).fb1 4
      = some 0xFFFFFFFF#32 := by decide +kernel

/-- E3: which axis is which on a frame that is not square; R164 item 6: pixel (1,1) of `gaps` reads word 8
before any pixel reads word 7. -/
theorem test_edge_axes : (after (exec (.filtEdge 0)
      (loaded 4 3 [g 0, g 10, g 20, g 30, g 0, g 10, g 25, g 30, g 5, g 10, g 20, g 40])) base).fb1
    = cells [black, black, black, black, black, 0xFF5A5A5A#32, 0xFF646464#32, black, black, black, black, black] ∧
    faultOf (exec (.filtEdge 0) gaps) = some (.unwritten (.word .fb0 8)) := by
  decide +kernel

/-- SH1 and SH2. -/
theorem test_sharpen : (after (exec (.filtSharpen 0) (loaded 3 3
      (List.replicate 4 0xFF0A141E#32 ++ [0xFFC8643C#32] ++ List.replicate 4 0xFF0A141E#32))) base).fb1
      = cells (List.replicate 4 0xFF0A141E#32 ++ [0xFFFFFFB4#32] ++ List.replicate 4 0xFF0A141E#32) ∧
    Memory.read (after (exec (.filtSharpen 0) (loaded 3 3
      (List.replicate 4 0xFFC8FA64#32 ++ [0xFF0A645A#32] ++ List.replicate 4 0xFFC8FA64#32))) base).fb1 4
      = some 0xFF000032#32 := by decide +kernel

/-- SH4: the corners have weight 0. -/
theorem test_sharpen_corners : Memory.read (after (exec (.filtSharpen 0) (loaded 3 3
    [g 255, g 100, g 255, g 100, g 100, g 100, g 255, g 100, g 255])) base).fb1 4 = some 0xFF646464#32 := by
  decide +kernel

/-- B5: a 4×4 frame has no interior for Blur, whatever the OPEN weights. -/
theorem test_blur_copies : (after (exec (.filtBlur 0) (loaded 4 4 ((List.range 16).map g))) base).fb1
    = cells ((List.range 16).map g) := by decide +kernel

/-- The **default kernel** of 93_implementation_defined G1, B1: the convolution with a kernel given. -/
theorem test_blur_default : outConvolution
    ⟨5, [[1, 4, 6, 4, 1], [4, 16, 24, 16, 4], [6, 24, 36, 24, 6], [4, 16, 24, 16, 4], [1, 4, 6, 4, 1]], 256, 0⟩
    (loaded 5 5 (List.replicate 12 black ++ [0xFFFF8001#32] ++ List.replicate 12 black)) 2 2
    = 0xFF231200#32 := by decide +kernel

/-- Height 2 has no interior for Emboss (P5). -/
theorem test_emboss_copies : (after (exec (.filtEmboss 0) (loaded 4 2 ((List.range 8).map g))) base).fb1
    = cells ((List.range 8).map g) := by decide +kernel

/-- The **default kernel** of 93_implementation_defined G2, M4: the orientation (42 R130). -/
theorem test_emboss_default : outConvolution ⟨3, [[-2, -1, 0], [-1, 0, 1], [0, 1, 2]], 1, 128⟩
    (loaded 3 3 [g 1, g 2, g 3, g 4, g 5, g 6, g 7, g 8, g 9]) 1 1 = 0xFF989898#32 := by decide +kernel

/-! ## The tracker (section 2.10) -/

/-- The table's fourth row; and F9. -/
theorem test_record : four.trk.fill = 3 ∧ four.trk.pos = 1 ∧
    (validSamples four.trk).map Slot.d0 = [durOfNat 4, durOfNat 6, durOfNat 8] ∧
    faultOf (exec (.trkRecord 0) bare) = some (.unwritten (.reg .sample0)) := by decide +kernel

theorem test_framerate : (after (exec (.trkFramerate 0) two) base).result.val.val = 10 ∧
    (after (exec (.trkFramerate 0) four) base).result.val.val = 20 / 3 := by decide +kernel

theorem test_average_conv : (after (exec (.trkAverageConv 0) two) base).result.val.val = 3 ∧
    (after (exec (.trkAverageConv 0) four) base).result.val.val = 6 := by decide +kernel

theorem test_average_filt : (after (exec (.trkAverageFilt 0) four) base).result.val.val = 8 / 3 := by
  decide +kernel

theorem test_average_comp : (after (exec (.trkAverageComp 0) four) base).result.val.val = 7 / 3 := by
  decide +kernel

theorem test_average_total : (after (exec (.trkAverageTotal 0) four) base).result.val.val = 11 := by
  decide +kernel

theorem test_average_e2e : (after (exec (.trkAverageE2e 0) four) base).result.val.val = 50 / 3 := by
  decide +kernel

theorem test_reset : (after (exec (.trkReset 0) four) base).trk.fill = 0 ∧
    (after (exec (.trkFramerate 0) (after (exec (.trkReset 0) four) base)) base).result.val = Dur.zero := by
  decide +kernel

/-! ## The step -/

/-- P6: the mark holds the fault, `FB1` is still unspecified. -/
theorem test_fault_entry :
    let s := having { bare with fb0W := reg 2, fb0H := reg 2, fb0 := cells [g 0, g 17, g 34] } (.wr 0 0x11)
    stateAfter s (step s) = { s with faultMark := some (.unwritten (.word .fb0 3)) } := by decide +kernel

/-- A host write to a read-only register is ignored (95_test_vectors section 2.11). -/
theorem test_read_only : (after (step (having base (.wr 12 9))) bare).fb1W = base.fb1W := by decide

/-- A word placed for the next step runs from reset, and the list is then empty. -/
theorem test_runs_from_reset :
    ((allCommands.map fun i => step (State.reset.withFetchWord 32 (encode i).toNat)).all isNext) = true := by
  decide +kernel

/-! ## Witnesses: the hypotheses of the obligations can be met -/

theorem witness_word_selects_its_row : ∀ k ∈ [0, 3], ∀ i ∈ rowsAt k,
    encode i &&& 0xFFFFCFFF#32 = baseWord i ∧ decode (encode i) = .instr i := by decide

theorem witness_word_selects_no_row : (0x00000016#32 : Word) &&& 0xFFFFCFFF#32 ∉
    [0x00000001#32, 0x00000010#32, 0x00000011#32, 0x00000012#32, 0x00000013#32, 0x00000014#32,
     0x00000015#32, 0x00000020#32, 0x00000021#32, 0x00000022#32, 0x00000122#32, 0x00000222#32,
     0x00000322#32, 0x00000422#32, 0x00000023#32] := by decide

theorem witness_decode_encode_agree : WellFormed (.convert 0) ∧ WellFormed (.trkReset 3) := by decide

theorem witness_encode_decode_agree : decode 0x00003422#32 = .instr (.trkAverageE2e 3) := by decide

theorem witness_mode_is_inert : 3 < 4 ∧ ∃ i, decode 0x00000011#32 = .instr i := ⟨by decide, _, rfl⟩

theorem witness_illegal_word_faults :
    (having base (.wr 0 0x16)).faultMark = none ∧ (having base (.wr 0 0x16)).host.todo = .wr 0 0x16 :: [] := ⟨rfl, rfl⟩

theorem witness_step_runs_decoded_command :
    (having (loaded 1 1 [g 5]) (.wr 0 0x11)).faultMark = none ∧
    (having (loaded 1 1 [g 5]) (.wr 0 0x11)).host.todo = .wr 0 0x11 :: [] ∧
    decode 0x11 = .instr (.filtGray 0) := ⟨rfl, rfl, by decide⟩

theorem witness_host_position_advances : (having base (.wr 12 9)).host.todo = .wr 12 9 :: [] ∧
    ∃ t, step (having base (.wr 12 9)) = .next t := ⟨rfl, _, rfl⟩

theorem witness_idle_step_changes_nothing : base.host.todo = [] ∧ base.faultMark = none := ⟨rfl, rfl⟩

/-- First clause: no fault is recorded yet. -/
theorem witness_fault_changes_only_the_mark :
    step (having (planes 0 4) (.wr 0 1)) = .fault .factorZero ∧ (having (planes 0 4) (.wr 0 1)).faultMark = none :=
  ⟨eq_fault (by decide +kernel), rfl⟩

/-- Second clause: a fault is recorded. -/
theorem witness_fault_stays : step { base with faultMark := some .factorZero } = .fault .factorZero := rfl

/-- A command's next state, and one that leads on from a recorded fault. -/
theorem witness_next_state_carries_no_fault :
    (∃ t, step (having (loaded 1 1 [g 5]) (.wr 0 0x11)) = .next t) ∧
    (∃ t, step (having { base with faultMark := some .factorZero } .reset) = .next t) ∧
    (having { base with faultMark := some .factorZero } .reset).faultMark ≠ none :=
  ⟨exists_next (by decide +kernel), exists_next (by decide), by decide⟩

theorem witness_capacity_never_changes :
    (∃ t, step (having four .reset) = .next t) ∧ ∃ t, step (having four (.wr 0 0x23)) = .next t :=
  ⟨exists_next (by decide +kernel), exists_next (by decide +kernel)⟩

theorem witness_every_command_runs_from_reset : WellFormed (.filtBlur 3) := by decide

theorem witness_hardware_reset_constructs_anew : (having four .reset).host.todo = .reset :: [] := rfl

/-- The clauses of `clamp8` at their boundaries: below, at 0, at 255, above. -/
theorem witness_channel_reductions : clamp8 (-1) = 0#8 ∧ clamp8 0 = 0#8 ∧ clamp8 255 = 255#8 ∧ clamp8 256 = 255#8 := by
  decide

/-- `CONVERT` is ready; the first and the last pixel, with their samples, and the first word beyond. -/
theorem witness_convert_result : ConvertReady (planes 1 4) ∧
    (0 < 4 / 1 ∧ Memory.read (planes 1 4).py 0 = some 16#8 ∧ Memory.read (planes 1 4).pu 0 = some 128#8 ∧
      Memory.read (planes 1 4).pv 0 = some 128#8) ∧
    (3 < 4 / 1 ∧ Memory.read (planes 1 4).py (3 * 1 * 4 + 3 * 1 * 1) = some 255#8 ∧
      Memory.read (planes 1 4).pu (3 * 1 / 2 * 2 + 3 * 1 / 2 * 1) = some 54#8 ∧
      Memory.read (planes 1 4).pv (3 * 1 / 2 * 2 + 3 * 1 / 2 * 1) = some 34#8) ∧ 4 * 4 ≤ 16 := by decide +kernel

/-- A ready `CONVERT` whose result has no pixel (vector A5). -/
theorem witness_convert_result_empty : ConvertReady (planes 5 4) ∧ outWidth (planes 5 4) = 0 := by decide +kernel

/-- The lowest and the highest operand register unwritten. -/
theorem witness_convert_register_fault :
    cscWritten bare = false ∧ bare.csc.w.written = false ∧
    cscWritten { planes 1 4 with csc := { (planes 1 4).csc with vPs := ⟨0, false⟩ } } = false := by decide

theorem witness_convert_factor_fault : cscWritten (planes 0 4) = true ∧ factor (planes 0 4) = 0 := by decide

/-- One word too many for the buffer: 33 where the capacity is 32. -/
theorem witness_convert_buffer_fault :
    let s := { base with csc := ⟨reg 33, reg 1, reg 1, reg 4, reg 1, reg 2, reg 1, reg 2, reg 1⟩ }
    cscWritten s = true ∧ 1 ≤ factor s ∧ s.cap.fbWords < outWidth s * outHeight s := by decide

/-- The planes with one chroma stride too large. -/
def farU : State := { planes 1 4 with csc := { (planes 1 4).csc with uRs := reg 16 } }

/-- The planes with one chroma stride too large. -/
def farV : State := { planes 1 4 with csc := { (planes 1 4).csc with vRs := reg 16 } }

/-- The first pixel with an index out of range: Y at exactly the capacity (F6). -/
theorem witness_convert_luma_index_fault :
    (∀ y < 4, ∀ x < 4, y * outWidth (planes 1 5) + x < 3 * outWidth (planes 1 5) + 1 →
      IndicesInRange (planes 1 5) x y) ∧ lumaIndex (planes 1 5) 1 3 = (planes 1 5).cap.planeY := by decide +kernel

/-- U at exactly the capacity. -/
theorem witness_convert_u_index_fault :
    (∀ y < 4, ∀ x < 4, y * outWidth farU + x < 2 * outWidth farU + 0 → IndicesInRange farU x y) ∧
      lumaIndex farU 0 2 < farU.cap.planeY ∧ uIndex farU 0 2 = farU.cap.planeU := by decide +kernel

/-- V at exactly the capacity. -/
theorem witness_convert_v_index_fault :
    (∀ y < 4, ∀ x < 4, y * outWidth farV + x < 2 * outWidth farV + 0 → IndicesInRange farV x y) ∧
      lumaIndex farV 0 2 < farV.cap.planeY ∧ uIndex farV 0 2 < farV.cap.planeU ∧
      vIndex farV 0 2 = farV.cap.planeV := by decide +kernel

/-- The other hypotheses of that clause. -/
theorem witness_convert_index_fault_ready : ∀ s ∈ [planes 1 5, farU, farV],
    cscWritten s = true ∧ 1 ≤ factor s ∧ outWidth s * outHeight s ≤ s.cap.fbWords ∧ outWidth s = 4 ∧
      outHeight s = 4 := by decide +kernel

/-- The planes with the last luma byte, with U, or with V missing. -/
def lacking (p : Plane) : State :=
  match p with
  | .py => { planes 1 4 with py := (planes 1 4).py.dropLast }
  | .pu => { planes 1 4 with pu := [] }
  | .pv => { planes 1 4 with pv := [] }

/-- The first pixel with an unwritten sample: the last pixel for Y, the first for U and V. -/
theorem witness_convert_unwritten_fault :
    ((∀ y < 4, ∀ x < 4, y * 4 + x < 3 * 4 + 3 → SamplesPresent (lacking .py) x y) ∧
      Memory.read (lacking .py).py (lumaIndex (lacking .py) 3 3) = none) ∧
    (Memory.read (lacking .pu).py (lumaIndex (lacking .pu) 0 0) ≠ none ∧
      Memory.read (lacking .pu).pu (uIndex (lacking .pu) 0 0) = none) ∧
    (Memory.read (lacking .pv).py (lumaIndex (lacking .pv) 0 0) ≠ none ∧
      Memory.read (lacking .pv).pu (uIndex (lacking .pv) 0 0) ≠ none ∧
      Memory.read (lacking .pv).pv (vIndex (lacking .pv) 0 0) = none) := by decide +kernel

/-- The other hypotheses of that clause. -/
theorem witness_convert_unwritten_fault_ready : ∀ p ∈ [Plane.py, .pu, .pv],
    cscWritten (lacking p) = true ∧ 1 ≤ factor (lacking p) ∧ outWidth (lacking p) = 4 ∧ outHeight (lacking p) = 4 ∧
      outWidth (lacking p) * outHeight (lacking p) ≤ (lacking p).cap.fbWords ∧
      ∀ y < 4, ∀ x < 4, IndicesInRange (lacking p) x y := by decide +kernel

theorem witness_convert_frame : ∃ t, exec (.convert 3) (planes 1 4) = .next t := exists_next (by decide +kernel)

/-- Zero-centred chroma, luma 16 at the first and 255 at the last pixel. -/
theorem witness_zero_chroma_gives_grey : ConvertReady greyPlanes ∧
    (∀ dy < outHeight greyPlanes, ∀ dx < outWidth greyPlanes,
      Memory.read greyPlanes.pu (uIndex greyPlanes dx dy) = some 128#8 ∧
      Memory.read greyPlanes.pv (vIndex greyPlanes dx dy) = some 128#8) ∧
    Memory.read greyPlanes.py (lumaIndex greyPlanes 0 0) = some 16#8 ∧
    Memory.read greyPlanes.py (lumaIndex greyPlanes 3 3) = some 255#8 := by decide +kernel

/-- Two states that differ elsewhere; a next state, and a fault. -/
theorem witness_convert_is_pure :
    (planes 1 4).csc = { planes 1 4 with fb1 := [(0, 0)] }.csc ∧
    (∃ t, exec (.convert 0) (planes 1 4) = .next t) ∧ exec (.convert 0) (planes 0 4) = .fault .factorZero :=
  ⟨rfl, exists_next (by decide +kernel), eq_fault (by decide +kernel)⟩

/-- An opaque grey field of 3×3: ready for every filter, the first and the last word, the first beyond. -/
theorem witness_filters : FilterReady (loaded 3 3 (List.replicate 9 (g 77))) ∧
    Memory.read (loaded 3 3 (List.replicate 9 (g 77))).fb0 0 = some (g 77) ∧
    Memory.read (loaded 3 3 (List.replicate 9 (g 77))).fb0 8 = some (g 77) ∧ 8 < 3 * 3 ∧ 3 * 3 ≤ 9 := by
  decide +kernel

/-- The empty buffer is ready too (41_point_filter_unit R100). -/
theorem witness_filters_empty : FilterReady (loaded 0 0 []) := by decide +kernel

/-- A pixel `pack(0xFF, v, v, v)` is what the grey field holds. -/
theorem witness_gray_keeps_grey : g 77 = pack 0xFF#8 77#8 77#8 77#8 := by decide

/-- The border and the interior of a 3×3 frame, and its grey map. -/
theorem witness_edge_result : FilterReady (loaded 3 3 (List.replicate 9 (g 77))) ∧
    (2 < 3 ∧ 2 + 1 = 3) ∧ (1 ≤ 1 ∧ 1 + 1 < 3) ∧
    (∀ y < 3, ∀ x < 3, Memory.read (loaded 3 3 (List.replicate 9 (g 77))).fb0 (y * 3 + x) = some (g 77)) ∧
    (77 * (red (g 77)).toNat + 150 * (green (g 77)).toNat + 29 * (blue (g 77)).toNat) / 256 = 77 := by decide +kernel

theorem witness_flat_field : ∀ i < 9, Memory.read (loaded 3 3 (List.replicate 9 (g 77))).fb0 i = some (g 77) := by
  decide +kernel

/-- A 5×5 frame: interior pixel (2,2), border pixel (1,2), for the 5×5 kernel. -/
theorem witness_blur_result : FilterReady (loaded 5 5 (List.replicate 25 (g 77))) ∧
    (2 ≤ 2 ∧ 2 + 2 < 5) ∧ ¬ (2 ≤ 1 ∧ 1 + 2 < 5) ∧
    (∀ y < 5, ∀ x < 5, Memory.read (loaded 5 5 (List.replicate 25 (g 77))).fb0 (y * 5 + x) = some (g 77)) := by
  decide +kernel

/-- A 3×3 frame: interior pixel (1,1), border pixel (0,1), for the 3×3 kernels. -/
theorem witness_sharpen_emboss_result : FilterReady (loaded 3 3 (List.replicate 9 (g 77))) ∧
    (1 ≤ 1 ∧ 1 + 1 < 3) ∧ ¬ (1 ≤ 0 ∧ 0 + 1 < 3) ∧
    (∀ y < 3, ∀ x < 3, Memory.read (loaded 3 3 (List.replicate 9 (g 77))).fb0 (y * 3 + x) = some (g 77)) := by
  decide +kernel

theorem witness_sharpen_keeps_flat_field : FilterReady (loaded 4 4 (List.replicate 16 (g 128))) ∧
    alpha (g 128) = 0xFF#8 ∧ ∀ i < 16, Memory.read (loaded 4 4 (List.replicate 16 (g 128))).fb0 i = some (g 128) := by
  decide +kernel

/-- The largest sizes without an interior, one side at a time. -/
theorem witness_no_interior : inWidth (loaded 4 6 []) ≤ 4 ∧ inHeight (loaded 6 4 []) ≤ 4 ∧
    inWidth (loaded 2 6 []) ≤ 2 ∧ inHeight (loaded 6 2 []) ≤ 2 := by decide

/-- Each clause: a computed pixel of each filter, and an opaque input. -/
theorem witness_outputs_opaque : (∀ i ∈ filterCommands 0, i ∈ filterCommands 0) ∧
    interior 2 5 5 (12 % 5) (12 / 5) = true ∧ interior 1 3 3 (4 % 3) (4 / 3) = true ∧
    (∃ p, Memory.read (loaded 3 3 (List.replicate 9 (g 77))).fb0 8 = some p ∧ alpha p = 0xFF#8) :=
  ⟨fun _ h => h, by decide, by decide, g 77, by decide +kernel, by decide⟩

theorem witness_filter_frame : ∃ t, exec (.filtEdge 1) (loaded 3 3 (List.replicate 9 (g 77))) = .next t :=
  exists_next (by decide +kernel)

/-- Two states that agree on the input only; a next state, and a fault. -/
theorem witness_filter_depends_on_input_only :
    (loaded 1 1 [g 5]).fb0 = { loaded 1 1 [g 5] with py := [(0, 7)] }.fb0 ∧
    (∃ t, exec (.filtGray 0) (loaded 1 1 [g 5]) = .next t) ∧
    exec (.filtGray 0) (loaded 1 1 []) = .fault (.unwritten (.word .fb0 0)) :=
  ⟨rfl, exists_next (by decide +kernel), eq_fault (by decide +kernel)⟩

/-- Each clause of the filters' faults: first register, second register, one word beyond the capacity, an
unwritten word that is the last one and the first unwritten one. -/
theorem witness_filters_stop_unready :
    bare.fb0W.written = false ∧
    ({ bare with fb0W := reg 2 }.fb0W.written = true ∧ { bare with fb0W := reg 2 }.fb0H.written = false) ∧
    (dimensionsWritten (loaded 33 1 []) = true ∧ (loaded 33 1 []).cap.fbWords < 33 * 1) ∧
    (dimensionsWritten (loaded 2 2 [g 0, g 0, g 0]) = true ∧
      inWidth (loaded 2 2 [g 0, g 0, g 0]) * inHeight (loaded 2 2 [g 0, g 0, g 0]) ≤ 32 ∧
      Memory.read (loaded 2 2 [g 0, g 0, g 0]).fb0 3 = none ∧
      ∀ k < 3, Memory.read (loaded 2 2 [g 0, g 0, g 0]).fb0 k ≠ none) := by decide +kernel

/-- A 4×4 frame with its last word unwritten. -/
def lacksLast : State := loaded 4 4 ((List.range 15).map g)

/-- A filter with radius 1: the first reading pixel that lacks a word is the interior pixel (1,1), number 5,
and the first it lacks is word 8, `(ky, kx) = (2, 0)`; a filter of radius 0 lacks word 7 first, at (3,1). -/
theorem witness_filter_fault_priority_interior :
    (dimensionsWritten gaps = true ∧ inWidth gaps * inHeight gaps ≤ gaps.cap.fbWords) ∧
    (∀ k < 5, Memory.read gaps.fb0 k ≠ none) ∧ (1 ≤ 1 ∧ 1 + 1 < 4) ∧
    Memory.read gaps.fb0 ((1 + 2 - 1) * 4 + (1 + 0 - 1)) = none ∧
    (∀ b < 3, ∀ a < 3, b * 3 + a < 2 * 3 + 0 → Memory.read gaps.fb0 ((1 + b - 1) * 4 + (1 + a - 1)) ≠ none) ∧
    (∀ k < 1 * 4 + 3, Memory.read gaps.fb0 k ≠ none) ∧ Memory.read gaps.fb0 (1 * 4 + 3) = none := by decide +kernel

/-- For Blur a 4×4 frame is all border: the last pixel is the first that lacks a word. -/
theorem witness_filter_fault_priority_border :
    (dimensionsWritten lacksLast = true ∧ inWidth lacksLast * inHeight lacksLast ≤ lacksLast.cap.fbWords) ∧
    ¬ (2 ≤ 3 ∧ 3 + 2 < 4) ∧ (∀ k < 3 * 4 + 3, Memory.read lacksLast.fb0 k ≠ none) ∧
    Memory.read lacksLast.fb0 (3 * 4 + 3) = none := by decide +kernel

/-- The copy and the grey filter meet an unwritten word; a buffer whose exact size is 2^32. -/
theorem witness_filter_fault_priority :
    (dimensionsWritten (loaded 2 2 [g 0, g 0, g 0]) = true ∧
      ∀ k < 3, Memory.read (loaded 2 2 [g 0, g 0, g 0]).fb0 k ≠ none) ∧
    ((loaded 65536 65536 []).fb0W = ⟨65536#32, true⟩ ∧ (loaded 65536 65536 []).fb0H = ⟨65536#32, true⟩ ∧
      (loaded 65536 65536 []).cap.fbWords < 2 ^ 32) := by decide +kernel

/-- A next state of `CONVERT` and of a filter; the first word inside and the first beyond a 4×4 result. -/
theorem witness_buffers_fully_populated : (∃ t, exec (.convert 0) (planes 1 4) = .next t) ∧
    (∃ t, exec (.filtBlur 0) (loaded 4 4 (List.replicate 16 (g 3))) = .next t) ∧ 0 < 4 * 4 ∧ 4 * 4 ≤ 16 :=
  ⟨exists_next (by decide +kernel), exists_next (by decide +kernel), by decide, by decide⟩

/-- Samples written, with a fixed answer of `TIME` and without one; and not written. -/
theorem witness_record_result : samplesWritten (sampled base 2 4 1 7 10 Dur.zero) = true ∧
    (sampled base 2 4 1 7 10 Dur.zero).timeNext = some Dur.zero ∧ samplesWritten base = true ∧
    samplesWritten bare = false := ⟨rfl, rfl, rfl, rfl⟩

/-- Samples written; and a command other than `TRK.RECORD` that completes. -/
theorem witness_time_fixes_the_next_record : samplesWritten four = true ∧
    ∃ t, exec (.trkFramerate 0) four = .next t := ⟨by decide +kernel, _, rfl⟩

/-- R69 on `base`: the later of two `TIME` actions is the capture time (log 26), and it is used up. -/
theorem test_time : let s := after (perform (.time (durOfNat 5)) (after (perform (.time (durOfNat 3)) base) base)) base
    (newestSlot (after (exec (.trkRecord 0) s) base).trk).t = durOfNat 5 ∧
      (after (exec (.trkRecord 0) s) base).timeNext = none := by decide +kernel

/-- The window not yet full, and full: records 3 and 4 of the table. -/
theorem witness_record_appends_to_window :
    (TrackerInvariant two.trk ∧ samplesWritten two = true ∧ two.trk.fill < two.trk.n) ∧
    (TrackerInvariant four.trk ∧ samplesWritten four = true ∧ four.trk.fill = four.trk.n) := by decide +kernel

theorem witness_window_is_the_last_records : TrackerInvariant (Tracker.fresh 3) ∧ (Tracker.fresh 3).fill = 0 ∧
    TrackerInvariant (Tracker.fresh 1) := by decide

/-- The lowest and the highest sample register unwritten. -/
theorem witness_record_fault_priority : bare.smp.d0.written = false ∧
    ({ base with smp := { base.smp with d4 := ⟨Dur.zero, false⟩ } }).smp.d4.written = false := ⟨rfl, rfl⟩

/-- Below two samples; two samples in a positive time; and two at one time, where the value is free. -/
theorem witness_framerate_result :
    (TrackerInvariant base.trk ∧ base.trk.fill < 2) ∧
    (TrackerInvariant two.trk ∧ 2 ≤ two.trk.fill ∧
      (validSamples two.trk).head?.map (fun x => x.t.val) = some 0 ∧
      (validSamples two.trk).getLast?.map (fun x => x.t.val) = some (1 / 10)) := by decide +kernel

/-- For `e = 0` the command completes (43_rolling_statistics_accumulator R148). -/
theorem witness_framerate_completes : isNext (exec (.trkFramerate 0)
    (record (record base 5 5 5 5 5 (durOfNat 7)) 7 5 5 5 5 (durOfNat 7))) = true := by decide +kernel

theorem witness_average_result : base.trk.fill = 0 ∧ four.trk.fill ≠ 0 := by decide +kernel

theorem witness_tracker_frame :
    (∃ t, exec (.trkRecord 0) (sampled base 2 4 1 7 10 Dur.zero) = .next t) ∧
    (∃ t, exec (.trkAverageE2e 0) four = .next t) ∧ ∃ t, exec (.trkReset 0) four = .next t :=
  ⟨⟨_, rfl⟩, ⟨_, rfl⟩, ⟨_, rfl⟩⟩

theorem witness_commands_respect_ownership : ∀ i ∈ rowsAt 0, isNext (exec i base) = true := by decide +kernel

theorem witness_only_commands_do_work : ∃ t, perform (.wr 1 5) base = .next t := ⟨_, rfl⟩

/-- The ends of the ranges of the host-written registers. -/
theorem witness_host_writes : (1 ≤ 1 ∧ 1 ≤ 11) ∧ (1 ≤ 11 ∧ 11 ≤ 11) ∧ (14 ≤ 14 ∧ 14 ≤ 18) ∧ (14 ≤ 18 ∧ 18 ≤ 18) := by
  decide

/-- Written registers at the ends of both lists, the last byte of a plane, a word of `FB1`, and a read that
completes. -/
theorem witness_host_reads : base.csc.w.written = true ∧ base.fb1H.written = true ∧
    base.smp.d0.written = true ∧ base.result.written = true ∧
    (15 < planeCapacity (planes 1 4) .py ∧ Memory.read (plane (planes 1 4) .py) 15 = some 255#8) ∧
    (31 < base.cap.fbWords ∧ Memory.read (buffer { base with fb1 := [(31, g 5)] } .fb1) 31 = some (g 5)) ∧
    ∃ t, perform (.rd 19) base = .next t :=
  ⟨rfl, rfl, rfl, rfl, by decide +kernel, by decide +kernel, _, rfl⟩

/-- Each refusal at its boundary: number 20, an index equal to the capacity, one below it unwritten. -/
theorem witness_host_refusals : 20 ≤ 20 ∧ planeCapacity bare .pv ≤ 16 ∧ bare.cap.fbWords ≤ 32 ∧
    (15 < planeCapacity bare .pv ∧ Memory.read (plane bare .pv) 15 = none) ∧
    (31 < bare.cap.fbWords ∧ Memory.read (buffer bare .fb1) 31 = none) ∧
    bare.csc.w.written = false ∧ bare.result.written = false := by decide

theorem witness_host_stores_load_back : 15 < planeCapacity bare .py ∧ 31 < bare.cap.fbWords := by decide

/-- A state with memories and a full ring that meets the four invariants, and its step. -/
theorem witness_invariants :
    let s := having { four with fb0 := cells [g 5], fb0W := reg 1, fb0H := reg 1, py := cells [1, 2] } (.wr 0 0x11)
    memoryCanonical s = true ∧ memoryInRange s = true ∧ TrackerInvariant s.trk ∧ OutputPopulated s ∧
      ∃ t, step s = .next t := by
  refine ⟨by decide +kernel, by decide +kernel, by decide +kernel, by decide +kernel, exists_next (by decide +kernel)⟩

end Sys2Proof.Tests
end

/-! PROOFS. The statements of 10_state: what a step keeps of the host's position and of the tracker, which
command writes what, the registers at the host port, and the reset state. -/

namespace Sys2Proof.Machine

/-! ## The tracker (10_state R14, R15) -/

theorem freshTracker_invariant {n : Nat} (hn : 1 ≤ n) : TrackerInvariant (Tracker.fresh n) :=
  ⟨hn, List.length_replicate, Nat.zero_le n, hn, fun _ => rfl⟩

theorem clearedTracker_invariant {t : Tracker} (h : TrackerInvariant t) :
    TrackerInvariant { t with fill := 0, pos := 0 } := by
  obtain ⟨hn, hring, -⟩ := h
  exact ⟨hn, hring, Nat.zero_le _, hn, fun _ => rfl⟩

@[simp] theorem storeByte_trk (s : State) (p : Plane) (i : Nat) (v : Byte) :
    (storeByte s p i v).trk = s.trk := by
  cases p <;> rfl

/-- Settles O58: only a record, `TRK.RESET` and the hardware reset touch the tracker, and each keeps its
invariant. -/
theorem stepKeepsTrackerInvariant : Obligations.StepKeepsTrackerInvariant :=
  step_keeps (fun s => TrackerInvariant s.trk)
    (convert := fun _ h _ => h)
    (filter := fun _ _ h _ => h)
    (record := fun _ h => pushSlot_invariant _ h)
    (query := fun _ _ _ h => h)
    (clear := fun _ h => clearedTracker_invariant h)
    (operand := fun _ _ _ _ _ h => h)
    (byte := fun s p i v h _ => by rw [storeByte_trk]; exact h)
    (word := fun _ _ _ h _ => h)
    (host := fun _ _ h => h)
    (time := fun _ _ h => h)
    (reset := fun _ h => freshTracker_invariant h.1)

/-- Settles O42: the new slot is the five samples and the answer of `TIME`, and pushing a slot appends to
the window. -/
theorem recordAppendsToWindow : Obligations.RecordAppendsToWindow := by
  intro m s hinv hwritten
  refine ⟨recordResult s, sampleSlot s (timeAnswer s),
    exec_trkRecord_eq_next.mpr ⟨hwritten, rfl⟩, rfl, ?_⟩
  rw [recordResult_trk, validSamples_push _ hinv, validSamples_length]
  split_ifs <;> rfl

/-! ## Which command writes what (10_state R10, R11, R16) -/

/-- The six queries of the tracker, which write `RESULT` (10_state R11). -/
abbrev queryCommands (m : Nat) : List Instr :=
  [.trkFramerate m, .trkAverageConv m, .trkAverageFilt m, .trkAverageComp m, .trkAverageTotal m,
    .trkAverageE2e m]

/-- A query changes `RESULT` and the count of draws at most. -/
theorem exec_query_eq_next {m : Nat} {i : Instr} {s t : State} (hi : i ∈ queryCommands m)
    (h : exec i s = .next t) : ∃ r d, t = { s with result := r, draws := d } := by
  have rate : ∃ r d, framerateResult s = { s with result := r, draws := d } :=
    ⟨_, _, framerateResult_frame s⟩
  have average : ∀ f, ∃ r d, averageResult f s = { s with result := r, draws := d } :=
    fun f => ⟨_, s.draws, averageResult_frame f s⟩
  simp only [List.mem_cons, List.not_mem_nil, or_false] at hi
  rcases hi with rfl | rfl | rfl | rfl | rfl | rfl <;> cases h
  · exact rate
  all_goals exact average _

/-- A filter's next state is a filter result. -/
theorem exec_filter_eq_next {m : Nat} {i : Instr} {s t : State} (hi : i ∈ filterCommands m)
    (h : exec i s = .next t) : ∃ out, t = filterResult out s := by
  obtain ⟨r, out, hexec⟩ := exec_filter hi
  rw [hexec, runFilter_eq_next] at h
  exact ⟨out, h.2⟩

/-- Every command is one of the five kinds that write different pieces of state. -/
theorem command_kinds (i : Instr) :
    ∃ m, i = .convert m ∨ i ∈ filterCommands m ∨ i = .trkRecord m ∨ i = .trkReset m ∨
      i ∈ queryCommands m :=
  ⟨i.mode, by cases i <;> simp [Instr.mode]⟩

/-- Settles O49: a case for each kind of command, with the one kind of state that it writes. -/
theorem commandsRespectOwnership : Obligations.CommandsRespectOwnership := by
  intro i s t h
  obtain ⟨m, rfl | hi | rfl | rfl | hi⟩ := command_kinds i
  · obtain ⟨-, rfl⟩ := exec_convert_eq_next.mp h
    exact ⟨rfl, rfl, rfl, rfl, rfl, rfl, fun hne => absurd rfl (hne m), fun _ => ⟨rfl, rfl, rfl⟩,
      fun _ => rfl, fun _ => rfl⟩
  · obtain ⟨out, rfl⟩ := exec_filter_eq_next hi h
    exact ⟨rfl, rfl, rfl, rfl, rfl, rfl, fun _ => ⟨rfl, rfl, rfl⟩, fun hne => absurd hi (hne m),
      fun _ => rfl, fun _ => rfl⟩
  · obtain ⟨-, rfl⟩ := exec_trkRecord_eq_next.mp h
    exact ⟨rfl, rfl, rfl, rfl, rfl, rfl, fun _ => ⟨rfl, rfl, rfl⟩, fun _ => ⟨rfl, rfl, rfl⟩,
      fun hne => absurd rfl (hne m).1, fun _ => rfl⟩
  · cases h
    exact ⟨rfl, rfl, rfl, rfl, rfl, rfl, fun _ => ⟨rfl, rfl, rfl⟩, fun _ => ⟨rfl, rfl, rfl⟩,
      fun hne => absurd rfl (hne m).2, fun _ => rfl⟩
  · obtain ⟨r, d, rfl⟩ := exec_query_eq_next hi h
    exact ⟨rfl, rfl, rfl, rfl, rfl, rfl, fun _ => ⟨rfl, rfl, rfl⟩, fun _ => ⟨rfl, rfl, rfl⟩,
      fun _ => rfl, fun hne => absurd hi (hne m)⟩

/-! ## The host's position (10_state R12) -/

/-- No command moves the host: its one writer is the step that issued the command. -/
theorem exec_keeps_host {i : Instr} {s t : State} (h : exec i s = .next t) : t.host = s.host := by
  obtain ⟨-, -, -, -, -, hhost, -⟩ := commandsRespectOwnership i s t h
  exact hhost

@[simp] theorem storeByte_host (s : State) (p : Plane) (i : Nat) (v : Byte) :
    (storeByte s p i v).host = s.host := by
  cases p <;> rfl

/-- What an action does apart from moving the host on leaves the host where it is. -/
theorem perform_keeps_position {a : HostAction} {s t : State} (h : perform a s = .next t) :
    t.host.todo = s.host.todo ∧ t.host.index = s.host.index := by
  rcases perform_eq_next h with ⟨v, i, _, _, h⟩ | ⟨c, d, e, m, rfl⟩ | ⟨p, i, v, _, _, rfl⟩ |
    ⟨i, v, _, _, rfl⟩ | ⟨v, rfl⟩ | ⟨d, rfl⟩ | ⟨_, rfl⟩
  case inl => rw [exec_keeps_host h]; exact ⟨rfl, rfl⟩
  case inr.inr.inl => rw [storeByte_host]; exact ⟨rfl, rfl⟩
  all_goals exact ⟨rfl, rfl⟩

/-- Settles O8: the action keeps the host's position, and then the step moves it on by one. -/
theorem hostPositionAdvances : Obligations.HostPositionAdvances := by
  refine ⟨fun s t a rest hl h => ?_, rfl, rfl⟩
  rcases step_eq_next h with ⟨hnil, -, -⟩ | ⟨b, r, u, -, -, hperform, rfl⟩
  · exact absurd (hl.symm.trans hnil) (List.cons_ne_nil a rest)
  · obtain ⟨htodo, hindex⟩ := perform_keeps_position hperform
    simp [htodo, hindex, hl]

/-! ## Writes of registers by the host (10_state R10, R11, R16) -/

/-- `RegName` lists the registers in the order of their numbers (20_memory R57). -/
theorem registerOf_eq_some {n : Nat} {r : RegName} (h : registerOf n = some r) : r.ctorIdx = n := by
  unfold registerOf at h
  split at h <;> cases h
  all_goals rfl

/-- The registers 1 to 11, the operand words that the host writes (10_state R10). -/
abbrev operandRegisters : List RegName :=
  [.cscW, .cscH, .cscF, .yRs, .yPs, .uRs, .uPs, .vRs, .vPs, .fb0W, .fb0H]

/-- The registers 14 to 18, the samples that the host writes (10_state R16). -/
abbrev sampleRegisters : List RegName := [.sample0, .sample1, .sample2, .sample3, .sample4]

theorem registerOf_operand {n : Nat} (h₁ : 1 ≤ n) (h₁₁ : n ≤ 11) :
    ∃ r ∈ operandRegisters, registerOf n = some r := by
  interval_cases n <;> exact ⟨_, by decide, rfl⟩

theorem registerOf_sample {n : Nat} (h₁₄ : 14 ≤ n) (h₁₈ : n ≤ 18) :
    ∃ r ∈ sampleRegisters, registerOf n = some r := by
  interval_cases n <;> exact ⟨_, by decide, rfl⟩

theorem perform_wr {n : Nat} {r : RegName} (hn : registerOf n = some r) (v : Word) (s : State) :
    perform (.wr n v) s = writeWord r v s := by
  simp [perform, hn]

theorem perform_wrDur {n : Nat} {r : RegName} (hn : registerOf n = some r) (d : Dur) (s : State) :
    perform (.wrDur n d) s = writeDur r d s := by
  simp [perform, hn]

theorem perform_rd {n : Nat} {r : RegName} (hn : registerOf n = some r) (s : State) :
    perform (.rd n) s = readRegister r s := by
  simp [perform, hn]

/-- From `s` to `t`, as the host can read them, register `r` has taken the value `o` and no other register
has changed. -/
def RegisterTakes (r : RegName) (o : Observed) (s t : State) : Prop :=
  readRegister r t = .next (observe t o) ∧
    ∀ q ≠ r, ∀ o', readRegister q t = .next (observe t o') ↔ readRegister q s = .next (observe s o')

theorem writeWord_operand {r : RegName} (hr : r ∈ operandRegisters) (v : Word) (s : State) :
    ∃ t, writeWord r v s = .next t ∧ RegisterTakes r (.word v) s t ∧
      t = { s with csc := t.csc, fb0W := t.fb0W, fb0H := t.fb0H } := by
  simp only [List.mem_cons, List.not_mem_nil, or_false] at hr
  rcases hr with rfl | rfl | rfl | rfl | rfl | rfl | rfl | rfl | rfl | rfl | rfl
  all_goals
    refine ⟨_, rfl, ⟨rfl, fun q hq o' => ?_⟩, rfl⟩
    cases q <;> simp [readRegister] at hq ⊢

theorem writeDur_sample {r : RegName} (hr : r ∈ sampleRegisters) (d : Dur) (s : State) :
    ∃ t, writeDur r d s = .next t ∧ RegisterTakes r (.dur d) s t ∧ t = { s with smp := t.smp } := by
  simp only [List.mem_cons, List.not_mem_nil, or_false] at hr
  rcases hr with rfl | rfl | rfl | rfl | rfl
  all_goals
    refine ⟨_, rfl, ⟨rfl, fun q hq o' => ?_⟩, rfl⟩
    cases q <;> simp [readRegister, writeSample] at hq ⊢

/-- An integer literal writes the duration of that value (30_encoding R69). -/
theorem writeWord_sample {r : RegName} (hr : r ∈ sampleRegisters) (v : Word) (s : State) :
    writeWord r v s = writeDur r (durOfNat v.toNat) s := by
  simp only [List.mem_cons, List.not_mem_nil, or_false] at hr
  rcases hr with rfl | rfl | rfl | rfl | rfl <;> rfl

/-- What a register has taken, the host reads at its number; at any other number it reads what it read
before. -/
theorem RegisterTakes.perform_rd {n : Nat} {r : RegName} {o : Observed} {s t : State}
    (hn : registerOf n = some r) (h : RegisterTakes r o s t) :
    perform (.rd n) t = .next (observe t o) ∧
      ∀ k o', k ≠ n →
        (perform (.rd k) t = .next (observe t o') ↔ perform (.rd k) s = .next (observe s o')) := by
  obtain ⟨hread, hother⟩ := h
  refine ⟨(Machine.perform_rd hn t).trans hread, fun k o' hk => ?_⟩
  cases hq : registerOf k with
  | none => simp [perform, hq]
  | some q =>
    have hqr : q ≠ r := by
      rintro rfl
      exact hk ((registerOf_eq_some hq).symm.trans (registerOf_eq_some hn))
    rw [Machine.perform_rd hq, Machine.perform_rd hq]
    exact hother q hqr o'

/-- Settles O51: the number names an operand register, and that register alone takes the value. -/
theorem hostWritesReadBack : Obligations.HostWritesReadBack := by
  intro s n v h₁ h₁₁
  obtain ⟨r, hr, hn⟩ := registerOf_operand h₁ h₁₁
  obtain ⟨t, hwrite, htakes, hframe⟩ := writeWord_operand hr v s
  obtain ⟨hback, hother⟩ := htakes.perform_rd hn
  exact ⟨t, (perform_wr hn v s).trans hwrite, hback, hother, hframe⟩

/-- Settles O52: the number names a sample register, and that register alone takes the duration. -/
theorem hostWritesSamples : Obligations.HostWritesSamples := by
  intro s n h₁₄ h₁₈
  obtain ⟨r, hr, hn⟩ := registerOf_sample h₁₄ h₁₈
  constructor
  · intro d
    obtain ⟨t, hwrite, htakes, hframe⟩ := writeDur_sample hr d s
    obtain ⟨hback, hother⟩ := htakes.perform_rd hn
    exact ⟨t, (perform_wrDur hn d s).trans hwrite, hback, hother, hframe⟩
  · intro v
    refine ⟨durOfNat v.toNat, rfl, ?_⟩
    rw [perform_wr hn, perform_wrDur hn, writeWord_sample hr]

/-! ## Reads by the host (10_state R11; 20_memory R40, R51) -/

theorem perform_ldByte_of_read {s : State} {p : Plane} {i : Nat} {v : Byte} (hi : i < planeCapacity s p)
    (h : Memory.read (plane s p) i = some v) :
    perform (.ldByte p i) s = .next (observe s (.byte v)) := by
  simp [perform, hostLoadByte, hi, h]

theorem perform_ldWord_of_read {s : State} {b : Buffer} {i : Nat} {v : Pixel} (hi : i < s.cap.fbWords)
    (h : Memory.read (buffer s b) i = some v) :
    perform (.ldWord b i) s = .next (observe s (.pixel v)) := by
  simp [perform, hostLoadWord, hi, h]

/-- A register read that completes adds a value to the host's record. -/
theorem perform_rd_eq_next {n : Nat} {s t : State} (h : perform (.rd n) s = .next t) :
    ∃ o, t = observe s o := by
  cases hn : registerOf n with
  | none => simp [perform, hn] at h
  | some r => exact readRegister_eq_next ((perform_rd hn s).symm.trans h)

/-- Settles O53: a written cell or location is read as its value, and every read that completes is an
`observe`. -/
theorem hostReads : Obligations.HostReads := by
  intro s
  refine ⟨fun c hc hw => ?_, fun c hc hw => ?_, fun p i v => perform_ldByte_of_read,
    fun b i v => perform_ldWord_of_read, fun a t ha h => ?_⟩
  · simp only [List.mem_cons, List.not_mem_nil, or_false] at hc
    rcases hc with rfl | rfl | rfl | rfl | rfl | rfl | rfl | rfl | rfl | rfl | rfl | rfl | rfl
    all_goals exact readCell_eq_next.mpr ⟨hw, rfl⟩
  · simp only [List.mem_cons, List.not_mem_nil, or_false] at hc
    rcases hc with rfl | rfl | rfl | rfl | rfl | rfl
    all_goals exact readCell_eq_next.mpr ⟨hw, rfl⟩
  · rcases ha with ⟨n, rfl⟩ | ⟨p, i, rfl⟩ | ⟨b, i, rfl⟩
    · exact perform_rd_eq_next h
    · exact hostLoadByte_eq_next h
    · exact hostLoadWord_eq_next h

/-! ## Reset (10_state R22) -/

/-- A CORE just constructed has no written byte. -/
theorem read_plane_constructed (b : Bool) (c : Capacities) (n : Nat) (p : Plane) (i : Nat) :
    Memory.read (plane (State.constructed b c n) p) i = none := by
  cases p <;> rfl

/-- A CORE just constructed has no written word. -/
theorem read_buffer_constructed (b : Bool) (c : Capacities) (n : Nat) (d : Buffer) (i : Nat) :
    Memory.read (buffer (State.constructed b c n) d) i = none := by
  cases d <;> rfl

theorem durOfNat_zero : durOfNat 0 = Dur.zero := by
  simp [durOfNat, Dur.zero]

/-- Settles O13: the marks, counters and fault mark are those of a CORE just constructed, whose memories
are unwritten. -/
theorem resetToTheLetter : Obligations.ResetToTheLetter :=
  ⟨⟨rfl, rfl, rfl, rfl, rfl, rfl, rfl, rfl, rfl⟩, ⟨rfl, rfl, rfl, rfl, rfl⟩, ⟨rfl, rfl, rfl, rfl, rfl⟩,
    rfl, rfl, rfl, rfl, read_plane_constructed _ _ _, read_buffer_constructed _ _ _, rfl⟩

/-- Settles O14: the two reset states are one construction with different marks. -/
theorem resetHoldsEveryRegister : Obligations.ResetHoldsEveryRegister := by
  refine ⟨?_, rfl, rfl, rfl, rfl, rfl, rfl, read_plane_constructed _ _ _, read_buffer_constructed _ _ _⟩
  rw [durOfNat_zero]
  rfl

/-- Settles O60: the memories are empty, the tracker is fresh with 30 slots, and the buffer of `FB1` is the
empty one. -/
theorem resetMeetsTheInvariants : Obligations.ResetMeetsTheInvariants :=
  ⟨rfl, rfl, freshTracker_invariant (by decide), rfl⟩

end Sys2Proof.Machine

/-! PROOFS. The statements of 20_memory: what every step keeps of the memory spaces, the buffers that a
command produces, the host's stores, and the channels of a packed pixel. -/

namespace Sys2Proof.Machine

/-! ## One byte stored in a plane (20_memory R40, R41) -/

@[simp] theorem storeByte_cap (s : State) (p : Plane) (i : Nat) (v : Byte) :
    (storeByte s p i v).cap = s.cap := by
  cases p <;> rfl

theorem planeCapacity_eq_of_cap {s t : State} (h : t.cap = s.cap) (p : Plane) :
    planeCapacity t p = planeCapacity s p := by
  cases p <;> simp only [planeCapacity, h]

theorem plane_storeByte (s : State) (p q : Plane) (i : Nat) (v : Byte) :
    plane (storeByte s p i v) q = if q = p then Memory.write (plane s q) i v else plane s q := by
  cases p <;> cases q <;> rfl

@[simp] theorem buffer_storeByte (s : State) (p : Plane) (i : Nat) (v : Byte) (b : Buffer) :
    buffer (storeByte s p i v) b = buffer s b := by
  cases p <;> rfl

/-- Only the planes change. -/
theorem storeByte_frame (s : State) (p : Plane) (i : Nat) (v : Byte) :
    storeByte s p i v = { s with
      py := (storeByte s p i v).py, pu := (storeByte s p i v).pu, pv := (storeByte s p i v).pv } := by
  cases p <;> rfl

/-! ## What every step keeps of the memory spaces (20_memory R40, R42 to R44, R55) -/

/-- A property of a space and its capacity holds of all five spaces of the state. -/
def EverySpace (Q : {α : Type} → Nat → List (Nat × α) → Prop) (s : State) : Prop :=
  (∀ p, Q (planeCapacity s p) (plane s p)) ∧ ∀ b, Q s.cap.fbWords (buffer s b)

/-- A space changes in three ways: it is emptied, one location below its capacity is written, or it is
filled with a buffer that fits. What these keep of a space, every step keeps of the five. -/
theorem step_keeps_everySpace (Q : {α : Type} → Nat → List (Nat × α) → Prop)
    (empty : ∀ {α : Type} cap, Q cap ([] : List (Nat × α)))
    (write : ∀ {α : Type} {cap i} (m : List (Nat × α)) v, i < cap → Q cap m → Q cap (Memory.write m i v))
    (fill : ∀ {α : Type} {cap n} (f : Nat → α), n ≤ cap → Q cap (Memory.fill n f)) :
    ∀ s t, EverySpace Q s → step s = .next t → EverySpace Q t :=
  step_keeps (EverySpace Q)
    (convert := fun _ ⟨hp, hb⟩ ⟨_, _, hfit, _⟩ => ⟨hp, fun
      | .fb0 => fill _ hfit
      | .fb1 => hb .fb1⟩)
    (filter := fun _ _ ⟨hp, hb⟩ ⟨_, hfit, _⟩ => ⟨hp, fun
      | .fb0 => hb .fb0
      | .fb1 => fill _ hfit⟩)
    (record := fun _ h => h)
    (query := fun _ _ _ h => h)
    (clear := fun _ h => h)
    (operand := fun _ _ _ _ _ h => h)
    (byte := fun s p i v ⟨hp, hb⟩ hi => by
      refine ⟨fun q => ?_, fun b => ?_⟩
      · rw [planeCapacity_eq_of_cap (storeByte_cap s p i v), plane_storeByte]
        split_ifs with hq
        · exact write _ v (hq ▸ hi) (hp q)
        · exact hp q
      · rw [storeByte_cap, buffer_storeByte]
        exact hb b)
    (word := fun _ _ v ⟨hp, hb⟩ hi => ⟨hp, fun
      | .fb0 => write _ v hi (hb .fb0)
      | .fb1 => hb .fb1⟩)
    (host := fun _ _ h => h)
    (time := fun _ _ h => h)
    (reset := fun _ _ => ⟨fun
      | .py => empty _
      | .pu => empty _
      | .pv => empty _, fun
      | .fb0 => empty _
      | .fb1 => empty _⟩)

theorem forall_plane {P : Plane → Prop} : (∀ p, P p) ↔ P .py ∧ P .pu ∧ P .pv :=
  ⟨fun h => ⟨h _, h _, h _⟩, fun ⟨hy, hu, hv⟩ => fun | .py => hy | .pu => hu | .pv => hv⟩

theorem forall_buffer {P : Buffer → Prop} : (∀ b, P b) ↔ P .fb0 ∧ P .fb1 :=
  ⟨fun h => ⟨h _, h _⟩, fun ⟨h₀, h₁⟩ => fun | .fb0 => h₀ | .fb1 => h₁⟩

theorem memoryCanonical_iff (s : State) :
    memoryCanonical s = true ↔ EverySpace (fun _ m => Memory.wf m = true) s := by
  simp [memoryCanonical, EverySpace, forall_plane, forall_buffer, plane, buffer, and_assoc]

theorem memoryInRange_iff (s : State) :
    memoryInRange s = true ↔ EverySpace (fun cap m => Memory.below cap m = true) s := by
  simp [memoryInRange, EverySpace, forall_plane, forall_buffer, plane, planeCapacity, buffer, and_assoc]

/-- Settles O56: a write keeps the indices rising, and a filled space lists `0, 1, ..`. -/
theorem stepKeepsMemoryCanonical : Obligations.StepKeepsMemoryCanonical := by
  intro s t
  rw [memoryCanonical_iff, memoryCanonical_iff]
  exact step_keeps_everySpace (fun _ m => Memory.wf m = true) (fun _ => rfl)
    (fun m v _ h => Memory.write_wf m _ v h) (fun f _ => Memory.fill_wf _ f) s t

/-- Settles O57: the host writes below the capacity only, and a command's buffer fits before it is
written. -/
theorem stepKeepsMemoryInRange : Obligations.StepKeepsMemoryInRange := by
  intro s t
  rw [memoryInRange_iff, memoryInRange_iff]
  exact step_keeps_everySpace (fun cap m => Memory.below cap m = true) (fun _ => rfl)
    (fun m v hi h => Memory.write_below m v hi h) (fun f hfit => Memory.fill_below f hfit) s t

/-- Settles O59: a filter fills `FB1` to the dimensions it sets, the hardware reset empties it and sets them
to 0, and nothing else touches `FB1`, `FB1_W` or `FB1_H`. -/
theorem stepKeepsOutputPopulated : Obligations.StepKeepsOutputPopulated :=
  step_keeps OutputPopulated
    (convert := fun _ h _ => h)
    (filter := fun _ _ _ _ => Memory.fst_fill _ _)
    (record := fun _ h => h)
    (query := fun _ _ _ h => h)
    (clear := fun _ h => h)
    (operand := fun _ _ _ _ _ h => h)
    (byte := fun s p i v h _ => by rw [storeByte_frame]; exact h)
    (word := fun _ _ _ h _ => h)
    (host := fun _ _ h => h)
    (time := fun _ _ h => h)
    (reset := fun _ _ => rfl)

/-! ## The buffers that a command produces (20_memory R44, R55) -/

theorem Memory.fill_populated {α : Type} (n : Nat) (f : Nat → α) :
    (∀ k, k < n → (Memory.read (Memory.fill n f) k).isSome = true) ∧
      ∀ k, n ≤ k → Memory.read (Memory.fill n f) k = none := by
  refine ⟨fun k hk => ?_, fun k hk => ?_⟩
  · simp [Memory.read_fill, hk]
  · simp [Memory.read_fill, Nat.not_lt.mpr hk]

/-- A quotient of a register's value fits in a register again. -/
theorem toNat_ofNat_div (w : Word) (n : Nat) : (BitVec.ofNat 32 (w.toNat / n)).toNat = w.toNat / n := by
  rw [BitVec.toNat_ofNat, Nat.mod_eq_of_lt (lt_of_le_of_lt (Nat.div_le_self _ _) w.isLt)]

/-- The dimension registers that `CONVERT` leaves hold the truncated dimensions exactly. -/
theorem convertResult_dimensions (s : State) :
    (convertResult s).fb0W.val.toNat = outWidth s ∧ (convertResult s).fb0H.val.toNat = outHeight s :=
  ⟨toNat_ofNat_div s.csc.w.val (factor s), toNat_ofNat_div s.csc.h.val (factor s)⟩

/-- Settles O39: the buffer is filled to the product of the dimensions that the command sets. -/
theorem buffersFullyPopulated : Obligations.BuffersFullyPopulated := by
  refine fun m s t => ⟨fun h => ?_, fun i hi h => ?_⟩
  · obtain ⟨-, rfl⟩ := exec_convert_eq_next.mp h
    obtain ⟨hw, hh⟩ := convertResult_dimensions s
    rw [hw, hh]
    exact Memory.fill_populated _ _
  · obtain ⟨out, rfl⟩ := exec_filter_eq_next hi h
    exact Memory.fill_populated _ _

/-! ## Stores by the host (20_memory R40, R51) -/

theorem read_storeByte_other (s : State) {p q : Plane} {i j : Nat} (v : Byte) (h : (q, j) ≠ (p, i)) :
    Memory.read (plane (storeByte s p i v) q) j = Memory.read (plane s q) j := by
  rw [plane_storeByte]
  split_ifs with hq
  · exact Memory.read_write_other _ v fun hj => h (by rw [hq, hj])
  · rfl

/-- Settles O55: a store below the capacity is one `Memory.write`, which reads back at its index and leaves
every other index as it was. -/
theorem hostStoresLoadBack : Obligations.HostStoresLoadBack := by
  refine ⟨fun s p i v hi => ?_, fun s i v hi => ?_⟩
  · refine ⟨storeByte s p i v, if_pos hi, ?_, fun q j h => read_storeByte_other s v h,
      fun b j => by rw [buffer_storeByte], storeByte_frame s p i v⟩
    apply perform_ldByte_of_read
    · rw [planeCapacity_eq_of_cap (storeByte_cap s p i v)]
      exact hi
    · rw [plane_storeByte, if_pos rfl]
      exact Memory.read_write_same _ _ _
  · refine ⟨{ s with fb0 := Memory.write s.fb0 i v }, if_pos hi,
      perform_ldWord_of_read hi (Memory.read_write_same _ _ _), fun q j => by cases q <;> rfl,
      fun b j h => ?_, rfl⟩
    cases b with
    | fb0 => exact Memory.read_write_other _ v fun hj => h (by rw [hj])
    | fb1 => rfl

/-! ## Channels of a packed pixel (20_memory R46) -/

/-- The channels are the four digits of a pixel in base 256. -/
theorem channels_toNat (p : Pixel) :
    (alpha p).toNat = p.toNat / 2 ^ 24 ∧ (red p).toNat = p.toNat / 2 ^ 16 % 256 ∧
      (green p).toNat = p.toNat / 2 ^ 8 % 256 ∧ (blue p).toNat = p.toNat % 256 := by
  have hp := p.isLt
  simp only [alpha, red, green, blue, BitVec.extractLsb'_toNat, Nat.shiftRight_eq_div_pow, true_and]
  omega

theorem toNat_append_eq_add {m n : Nat} (x : BitVec m) (y : BitVec n) :
    (x ++ y).toNat = x.toNat * 2 ^ n + y.toNat := by
  rw [BitVec.toNat_append, ← Nat.shiftLeft_add_eq_or_of_lt y.isLt, Nat.shiftLeft_eq]

theorem pack_toNat (a r g b : Byte) :
    (pack a r g b).toNat = a.toNat * 2 ^ 24 + r.toNat * 2 ^ 16 + g.toNat * 2 ^ 8 + b.toNat := by
  simp only [pack, toNat_append_eq_add]
  ring

/-- Each channel reads back what `pack` has put there. -/
theorem channels_pack (a r g b : Byte) :
    alpha (pack a r g b) = a ∧ red (pack a r g b) = r ∧ green (pack a r g b) = g ∧
      blue (pack a r g b) = b := by
  obtain ⟨hα, hρ, hγ, hβ⟩ := channels_toNat (pack a r g b)
  rw [pack_toNat] at hα hρ hγ hβ
  exact ⟨BitVec.eq_of_toNat_eq (by omega), BitVec.eq_of_toNat_eq (by omega),
    BitVec.eq_of_toNat_eq (by omega), BitVec.eq_of_toNat_eq (by omega)⟩

/-- Settles O17: the channels of a pixel, and of a packed one, as digits in base 256. -/
theorem channelPositions : Obligations.ChannelPositions :=
  ⟨channels_toNat, pack_toNat, channels_pack, rfl, by decide⟩

end Sys2Proof.Machine

/-! PROOFS. The statements of 30_encoding: which word decodes to which command, that decoder and encoder
agree, that the mode is inert, and what a write to the command port does. -/

namespace Sys2Proof

/-! ## The word of a command and its fields (30_encoding R60, R61) -/

/-- All of a row's word takes part in the match. -/
theorem baseWord_masked (i : Instr) : baseWord i &&& matchMask = baseWord i := by
  cases i <;> (simp only [baseWord]; decide)

/-- A row's word has no bit in the `MODE` field. -/
theorem modeField_baseWord (i : Instr) : modeField (baseWord i) = 0 := by
  cases i <;> (simp only [baseWord]; decide)

theorem encode_masked (i : Instr) : encode i &&& matchMask = baseWord i := by
  rw [encode, or_modeWord_masked, baseWord_masked]

theorem wellFormed_iff {i : Instr} : WellFormed i ↔ i.mode < 4 := by
  simp [WellFormed, Instr.wf]

theorem modeField_encode {i : Instr} (h : WellFormed i) : modeField (encode i) = i.mode :=
  modeField_or (modeField_baseWord i) (wellFormed_iff.mp h)

/-- Settles O3: the match bits of the word are the row's and its mode field is the mode. -/
theorem decodeEncodeAgree : Obligations.DecodeEncodeAgree :=
  fun i h => decode_of_row (encode_masked i).symm (modeField_encode h).symm

/-- Settles O4: a word is its match bits or-ed with its mode, and decoding keeps both. -/
theorem encodeDecodeAgree : Obligations.EncodeDecodeAgree := by
  intro w i h
  obtain ⟨hrow, hmode⟩ := decode_eq_instr h
  constructor
  · rw [wellFormed_iff, hmode]
    exact modeField_lt w
  · rw [encode, hrow, hmode, word_split]

/-! ## The fifteen rows (30_encoding R61, R65) -/

/-- The column `match` of 30_encoding R61. -/
abbrev matchWords : List Word :=
  [0x00000001#32, 0x00000010#32, 0x00000011#32, 0x00000012#32, 0x00000013#32, 0x00000014#32,
    0x00000015#32, 0x00000020#32, 0x00000021#32, 0x00000022#32, 0x00000122#32, 0x00000222#32,
    0x00000322#32, 0x00000422#32, 0x00000023#32]

theorem baseWord_mem_matchWords (i : Instr) : baseWord i ∈ matchWords := by
  cases i <;> simp [baseWord, rowWord]

/-- A word that matches no row is no command. -/
theorem decode_ne_instr {w : Word} (h : w &&& matchMask ∉ matchWords) (i : Instr) :
    decode w ≠ .instr i := by
  intro hi
  rw [← (decode_eq_instr hi).1] at h
  exact h (baseWord_mem_matchWords i)

/-- Settles O1: row by row the match bits are the row's word, and `MODE` is the mode. -/
theorem wordSelectsItsRow : Obligations.WordSelectsItsRow := by
  intro w
  refine ⟨?_, ?_, ?_, ?_, ?_, ?_, ?_, ?_, ?_, ?_, ?_, ?_, ?_, ?_, ?_, decode_ne_instr⟩
  all_goals exact fun h => decode_of_row h.symm rfl

/-! ## One command with another mode (30_encoding R66) -/

/-- The command of the same row with mode `k`. -/
def Instr.withMode (k : Nat) : Instr → Instr
  | .convert _ => .convert k
  | .filtNoop _ => .filtNoop k
  | .filtGray _ => .filtGray k
  | .filtEdge _ => .filtEdge k
  | .filtBlur _ => .filtBlur k
  | .filtSharpen _ => .filtSharpen k
  | .filtEmboss _ => .filtEmboss k
  | .trkRecord _ => .trkRecord k
  | .trkFramerate _ => .trkFramerate k
  | .trkAverageConv _ => .trkAverageConv k
  | .trkAverageFilt _ => .trkAverageFilt k
  | .trkAverageComp _ => .trkAverageComp k
  | .trkAverageTotal _ => .trkAverageTotal k
  | .trkAverageE2e _ => .trkAverageE2e k
  | .trkReset _ => .trkReset k

@[simp] theorem Instr.mode_withMode (i : Instr) (k : Nat) : (i.withMode k).mode = k := by
  cases i <;> rfl

@[simp] theorem baseWord_withMode (i : Instr) (k : Nat) : baseWord (i.withMode k) = baseWord i := by
  cases i <;> rfl

theorem wellFormed_withMode (i : Instr) {k : Nat} (hk : k < 4) : WellFormed (i.withMode k) := by
  rwa [wellFormed_iff, Instr.mode_withMode]

/-- `k << 12` of 30_encoding R68 is the mode put in place. -/
theorem ofNat_shiftLeft_eq_modeWord {k : Nat} (hk : k < 4) : BitVec.ofNat 32 k <<< 12 = modeWord k := by
  interval_cases k <;> rfl

/-- Replacing the `MODE` field of a command's word gives the word of the command with that mode. -/
theorem replaceMode_eq_encode {w : Word} {i : Instr} (h : decode w = .instr i) {k : Nat} (hk : k < 4) :
    (w &&& matchMask) ||| (BitVec.ofNat 32 k <<< 12) = encode (i.withMode k) := by
  rw [encode, baseWord_withMode, Instr.mode_withMode, (decode_eq_instr h).1,
    ofNat_shiftLeft_eq_modeWord hk]

end Sys2Proof

namespace Sys2Proof.Machine

/-! ## Writes to the command port (30_encoding R65 to R67) -/

/-- No meaning reads the mode. -/
@[simp] theorem exec_withMode (i : Instr) (k : Nat) (s : State) : exec (i.withMode k) s = exec i s := by
  cases i <;> rfl

theorem issue_of_decode {w : Word} {i : Instr} (h : decode w = .instr i) (s : State) :
    issue w s = exec i s := by
  rw [issue, h]

theorem issue_of_no_match {w : Word} (h : w &&& matchMask ∉ matchWords) (s : State) :
    issue w s = .fault (.illegalCommand w) := by
  cases hw : decode w with
  | instr i => exact absurd hw (decode_ne_instr h i)
  | illegal why => rw [issue, hw]

/-- Settles O5: the word with another mode is the same row's, and no meaning reads the mode. -/
theorem modeIsInert : Obligations.ModeIsInert := by
  rintro w m s hm ⟨i, hi⟩
  calc issue ((w &&& matchMask) ||| (BitVec.ofNat 32 m <<< 12)) s
      = issue (encode (i.withMode m)) s := by rw [replaceMode_eq_encode hi hm]
    _ = exec (i.withMode m) s := issue_of_decode (decodeEncodeAgree _ (wellFormed_withMode i hm)) s
    _ = exec i s := exec_withMode i m s
    _ = issue w s := (issue_of_decode hi s).symm

/-- A step whose action is a write to `CMD` issues the word. -/
theorem step_of_command {s : State} {w : Word} {rest : List HostAction} (hm : s.faultMark = none)
    (hl : s.host.todo = .wr 0 w :: rest) : step s = thenAdvance (issue w s) :=
  step_of_action hm hl

theorem recordFault_of_unmarked {s : State} (hm : s.faultMark = none) (f : Fault) :
    recordFault s f = { s with faultMark := some f } := by
  rw [recordFault, hm]

/-- Settles O6: the word matches no row, so that issuing it is the fault, which the empty mark takes. -/
theorem illegalWordFaults : Obligations.IllegalWordFaults := by
  intro s w rest hm hl hw
  have hstep : step s = .fault (.illegalCommand w) := by
    rw [step_of_command hm hl, issue_of_no_match hw, thenAdvance]
  refine ⟨hstep, ?_⟩
  rw [hstep]
  exact recordFault_of_unmarked hm _

/-- Settles O7: the step issues the word and moves the host on, which the command has left in place. -/
theorem stepRunsDecodedCommand : Obligations.StepRunsDecodedCommand := by
  intro s w i rest hm hl hi
  rw [step_of_command hm hl, issue_of_decode hi]
  cases hexec : exec i s with
  | next t => simp [thenAdvance, advanceHost, exec_keeps_host hexec, hl]
  | fault f => rfl
  | refused r => rfl

/-! ## The fixed answer of `TIME` (30_encoding R69) -/

/-- `TRK.RECORD` alone uses up the answer that `TIME` has fixed. -/
theorem exec_keeps_timeNext {i : Instr} {s t : State} (hi : ∀ k, i ≠ .trkRecord k)
    (h : exec i s = .next t) : t.timeNext = s.timeNext := by
  obtain ⟨m, rfl | hf | rfl | rfl | hq⟩ := command_kinds i
  · obtain ⟨-, rfl⟩ := exec_convert_eq_next.mp h
    rfl
  · obtain ⟨out, rfl⟩ := exec_filter_eq_next hf h
    rfl
  · exact absurd rfl (hi m)
  · cases h
    rfl
  · obtain ⟨r, d, rfl⟩ := exec_query_eq_next hq h
    rfl

/-- Settles O41: the record takes the fixed answer as its capture time and empties the field, which every
other command leaves alone. -/
theorem timeFixesTheNextRecord : Obligations.TimeFixesTheNextRecord := by
  intro m s d
  refine ⟨{ s with timeNext := some d }, rfl, rfl, fun hw => ?_, fun i t => exec_keeps_timeNext⟩
  exact ⟨recordResult { s with timeNext := some d }, exec_trkRecord_eq_next.mpr ⟨hw, rfl⟩, rfl, rfl, rfl⟩

/-! ## Commands from reset (30_encoding R67) -/

/-- A command completes when the preconditions of all commands hold. -/
theorem exec_completes {s : State} (hc : ConvertReady s) (hf : FilterReady s)
    (hs : samplesWritten s = true) (i : Instr) : ∃ t, exec i s = .next t := by
  obtain ⟨m, rfl | hi | rfl | rfl | hi⟩ := command_kinds i
  · exact ⟨_, exec_convert_eq_next.mpr ⟨hc, rfl⟩⟩
  · obtain ⟨r, out, hexec⟩ := exec_filter hi
    exact ⟨_, (hexec s).trans (runFilter_eq_next.mpr ⟨hf, rfl⟩)⟩
  · exact ⟨_, exec_trkRecord_eq_next.mpr ⟨hs, rfl⟩⟩
  · exact ⟨_, rfl⟩
  · simp only [List.mem_cons, List.not_mem_nil, or_false] at hi
    rcases hi with rfl | rfl | rfl | rfl | rfl | rfl <;> exact ⟨_, rfl⟩

/-- The reset values give buffers without a pixel, so that nothing is read from the empty memories. -/
theorem reset_convertReady : ConvertReady State.reset :=
  ⟨rfl, le_rfl, Nat.zero_le _, fun _ h => absurd h (Nat.not_lt_zero _)⟩

theorem reset_filterReady : FilterReady State.reset :=
  ⟨rfl, Nat.zero_le _, fun _ h => absurd h (Nat.not_lt_zero _)⟩

theorem withFetchWord_todo (s : State) (w : Word) :
    (s.withFetchWord 32 w.toNat).host.todo = .wr 0 w :: s.host.todo := by
  simp [State.withFetchWord, Nat.mod_eq_of_lt w.isLt]

/-- The step after a command's word is placed is the command, with the host moved on. -/
theorem step_withFetchWord (s : State) {i : Instr} (hi : WellFormed i) :
    step (s.withFetchWord 32 (encode i).toNat) =
      thenAdvance (exec i (s.withFetchWord 32 (encode i).toNat)) := by
  rw [step_of_command rfl (withFetchWord_todo s (encode i)), issue_of_decode (decodeEncodeAgree i hi)]

/-- Settles O15: the reset values meet every command's preconditions, which the placing of a word leaves
alone, and the completed action was the only one in the list. -/
theorem everyCommandRunsFromReset : Obligations.EveryCommandRunsFromReset := by
  intro i hi
  obtain ⟨u, hu⟩ := exec_completes (s := State.reset.withFetchWord 32 (encode i).toNat)
    reset_convertReady reset_filterReady rfl i
  refine ⟨advanceHost u, by rw [step_withFetchWord _ hi, hu, thenAdvance], ?_⟩
  rw [advanceHost_host, exec_keeps_host hu]
  rfl

end Sys2Proof.Machine

/-! PROOFS. The statements of 40_color_space_converter: what `CONVERT` computes, what it leaves unchanged, and
what decides its outcome. -/

namespace Sys2Proof.Machine

/-! ## The pixel of three samples (40_color_space_converter R83 to R86, R89) -/

/-- The clamp leaves a channel value alone. -/
@[simp] theorem clamp8_byteInt (b : Byte) : clamp8 (byteInt b) = b := by
  have hb := b.isLt
  have hlow : ¬ byteInt b < 0 := by simp [byteInt]
  have hhigh : ¬ 255 < byteInt b := by unfold byteInt; omega
  rw [clamp8, if_neg hlow, if_neg hhigh, byteInt, BitVec.ofInt_natCast, BitVec.ofNat_toNat,
    BitVec.setWidth_eq]

/-- Scaling a channel value and reducing it again gives the value back. -/
theorem channelOf_scaled (b : Byte) : channelOf (1000000 * byteInt b) = b := by
  rw [channelOf, Int.mul_tdiv_cancel_left _ (by decide), clamp8_byteInt]

@[simp] theorem chroma_centre : chroma 128#8 = 0 := rfl

/-- Zero-centred chroma adds nothing to any of the three sums. -/
theorem colour_centre (ys : Byte) : colour ys 128#8 128#8 = grey ys := by
  simp [colour, scaledRed, scaledGreen, scaledBlue, channelOf_scaled, grey]

/-- A pixel of the buffer `CONVERT` has written, from the three samples that it reads. -/
theorem read_convertResult_of_samples {s : State} {dx dy : Nat} {ys us vs : Byte}
    (hx : dx < outWidth s) (hy : dy < outHeight s)
    (hys : Memory.read s.py (lumaIndex s dx dy) = some ys)
    (hus : Memory.read s.pu (uIndex s dx dy) = some us)
    (hvs : Memory.read s.pv (vIndex s dx dy) = some vs) :
    Memory.read (convertResult s).fb0 (dy * outWidth s + dx) = some (colour ys us vs) := by
  rw [read_convertResult s hx hy, convertPixel, byteAt_eq hys, byteAt_eq hus, byteAt_eq hvs]

/-- `CONVERT` with its preconditions answers the state with the converted buffer. -/
theorem exec_convert_of_ready (m : Nat) {s : State} (h : ConvertReady s) :
    exec (.convert m) s = .next (convertResult s) :=
  exec_convert_eq_next.mpr ⟨h, rfl⟩

/-! In a namespace of its own, since the model has a definition `Machine.convertResult`. -/
namespace Converter

/-- Settles O20: the quotients fit in the dimension registers, each pixel is `colour` of the samples read at its
three indices, and the buffer ends with its last pixel. -/
theorem convertResult : Obligations.ConvertResult := by
  intro m s hready
  obtain ⟨hw, hh⟩ := convertResult_dimensions s
  refine ⟨Machine.convertResult s, exec_convert_of_ready m hready, rfl, hw, rfl, hh, ?_, ?_⟩
  · intro dx dy hx hy ys us vs hys hus hvs
    exact read_convertResult_of_samples hx hy hys hus hvs
  · exact (Memory.fill_populated _ _).2

end Converter

/-- Settles O23: every pixel is `colour` of its luma sample and two centred chroma samples, which is grey. -/
theorem zeroChromaGivesGrey : Obligations.ZeroChromaGivesGrey := by
  intro m s hready hchroma
  refine ⟨convertResult s, exec_convert_of_ready m hready, fun dx dy hx hy ys hys => ?_⟩
  obtain ⟨hus, hvs⟩ := hchroma dx dy hx hy
  rw [read_convertResult_of_samples hx hy hys hus hvs, colour_centre]
  rfl

/-! ## The frame (40_color_space_converter R87) -/

@[simp] theorem plane_convertResult (s : State) (p : Plane) : plane (convertResult s) p = plane s p := by
  cases p <;> rfl

/-- Settles O22: the next state is `convertResult s`, which replaces `FB0` and its dimensions alone. -/
theorem convertFrame : Obligations.ConvertFrame := by
  intro m s t h
  obtain ⟨-, rfl⟩ := exec_convert_eq_next.mp h
  exact ⟨rfl, fun p i => by rw [plane_convertResult], fun i => rfl⟩

/-! ## The operands (40_color_space_converter R90) -/

/-- The state `v` with the operands of `CONVERT` taken from `s`: the operand registers, the planes and the
capacities. -/
def withConvertOperands (s v : State) : State :=
  { v with csc := s.csc, py := s.py, pu := s.pu, pv := s.pv, cap := s.cap }

/-- A state that has the operands of `s` already. -/
theorem withConvertOperands_eq_self {s v : State} (hcsc : s.csc = v.csc) (hpy : s.py = v.py)
    (hpu : s.pu = v.pu) (hpv : s.pv = v.pv) (hcap : s.cap = v.cap) : withConvertOperands s v = v := by
  rw [withConvertOperands, hcsc, hpy, hpu, hpv, hcap]

/-- No condition of `CONVERT` looks beyond its operands. -/
theorem convertFault_withConvertOperands (s v : State) :
    convertFault (withConvertOperands s v) = convertFault s := rfl

/-- What `CONVERT` writes is computed from its operands. -/
theorem convertResult_withConvertOperands (s v : State) :
    convertResult (withConvertOperands s v) =
      { withConvertOperands s v with
        fb0 := (convertResult s).fb0, fb0W := (convertResult s).fb0W, fb0H := (convertResult s).fb0H } :=
  rfl

theorem exec_convert_eq_fault {m : Nat} {s : State} {f : Fault} :
    exec (.convert m) s = .fault f ↔ convertFault s = some f :=
  finish_eq_fault

/-- Settles O24: a state with the same operands has the same first failing condition, and without one the same
buffer and dimensions are written into it. -/
theorem convertIsPure : Obligations.ConvertIsPure := by
  intro m k s u hcsc hpy hpu hpv hcap
  rw [← withConvertOperands_eq_self hcsc hpy hpu hpv hcap]
  refine ⟨fun f => ?_, fun t h => ?_⟩
  · rw [exec_convert_eq_fault, exec_convert_eq_fault, convertFault_withConvertOperands]
  · obtain ⟨hready, rfl⟩ := exec_convert_eq_next.mp h
    have hready' : ConvertReady (withConvertOperands s u) := by
      rwa [← convertFault_eq_none, convertFault_withConvertOperands, convertFault_eq_none]
    rw [exec_convert_of_ready k hready', convertResult_withConvertOperands]

end Sys2Proof.Machine

/-! PROOFS. The statements of 41_point_filter_unit: the copy, the grey and the edge filter, and what all six
filters have in common, their faults, their frame and what decides their outcome. -/

namespace Sys2Proof.Machine

/-! ## The reductions of a channel (00_scope section 4.2, 41_point_filter_unit R102) -/

theorem clamp8_of_neg {v : Int} (h : v < 0) : clamp8 v = 0#8 := if_pos h

theorem clamp8_of_gt {v : Int} (h : 255 < v) : clamp8 v = 255#8 := by
  rw [clamp8, if_neg (by omega), if_pos h]

theorem clamp8_toNat {v : Int} (h₀ : 0 ≤ v) (h₁ : v ≤ 255) : ((clamp8 v).toNat : Int) = v := by
  rw [clamp8, if_neg (by omega), if_neg (by omega), BitVec.toNat_ofInt]
  omega

/-- The weights add up to 256, so that the shifted sum fits in a channel. -/
theorem luma_toNat (p : Pixel) :
    (luma p).toNat = (77 * (red p).toNat + 150 * (green p).toNat + 29 * (blue p).toNat) / 256 := by
  have hr := (red p).isLt
  have hg := (green p).isLt
  have hb := (blue p).isLt
  rw [luma, BitVec.toNat_ofNat, Nat.shiftRight_eq_div_pow]
  omega

@[simp] theorem luma_grey (v : Byte) : luma (grey v) = v := by
  obtain ⟨-, hr, hg, hb⟩ := channels_pack opaqueAlpha v v v
  apply BitVec.eq_of_toNat_eq
  rw [luma_toNat, grey, hr, hg, hb]
  omega

/-- Settles O18: the clamp by its three cases, and the luma as an exact sum whose weights add up to 256. -/
theorem channelReductions : Obligations.ChannelReductions :=
  ⟨fun _ => ⟨clamp8_of_neg, clamp8_of_gt, clamp8_toNat⟩, luma_toNat, luma_grey⟩

/-! ## The faults of a filter (41_point_filter_unit R101, 60_exceptions R164) -/

theorem wordFault_eq_some {s : State} {i : Nat} {f : Fault} :
    wordFault s i = some f ↔ Memory.read s.fb0 i = none ∧ f = .unwritten (.word .fb0 i) := by
  unfold wordFault
  split <;> simp [*, eq_comm]

theorem runFilter_eq_fault {r : Nat} {out : State → Nat → Nat → Pixel} {s : State} {f : Fault} :
    runFilter r out s = .fault f ↔ filterFault r s = some f :=
  finish_eq_fault

/-- A filter reports an unwritten dimension register before it looks at the buffer. -/
theorem filterFault_of_dimensionFault {r : Nat} {s : State} {f : Fault} (h : dimensionFault s = some f) :
    filterFault r s = some f := by
  simp [filterFault, h]

theorem filterFault_of_bufferFault {r : Nat} {s : State} (hd : dimensionsWritten s = true)
    (hcap : s.cap.fbWords < inWidth s * inHeight s) :
    filterFault r s = some (.bufferIndex (inWidth s * inHeight s)) := by
  simp [filterFault, (dimensionFault_eq_none s).mpr hd, bufferFault, hcap]

/-- With its dimensions in place and a buffer that fits, a filter fails at the first unwritten word it reads. -/
theorem filterFault_of_fits {r : Nat} {s : State} (hd : dimensionsWritten s = true)
    (hfit : inWidth s * inHeight s ≤ s.cap.fbWords) :
    filterFault r s = (readOrder r (inWidth s) (inHeight s)).findSome? (wordFault s) := by
  rw [filterFault, (dimensionFault_eq_none s).mpr hd, (bufferFault_eq_none s _).mpr hfit]
  cases (readOrder r (inWidth s) (inHeight s)).findSome? (wordFault s) <;> rfl

/-- A filter reads every word of the buffer and no other, so that an unwritten word makes it fail at one. -/
theorem findSome_readOrder_of_unwritten (r : Nat) {s : State} {n : Nat} (hn : n < inWidth s * inHeight s)
    (hnone : Memory.read s.fb0 n = none) :
    ∃ k, k < inWidth s * inHeight s ∧ Memory.read s.fb0 k = none ∧
      (readOrder r (inWidth s) (inHeight s)).findSome? (wordFault s) = some (.unwritten (.word .fb0 k)) := by
  have hfails : wordFault s n = some (.unwritten (.word .fb0 n)) := wordFault_eq_some.mpr ⟨hnone, rfl⟩
  cases hfirst : (readOrder r (inWidth s) (inHeight s)).findSome? (wordFault s) with
  | none =>
    have hnot := List.findSome?_eq_none_iff.mp hfirst n (readOrder_covers hn)
    exact absurd (hfails.symm.trans hnot) (Option.some_ne_none _)
  | some f =>
    obtain ⟨k, hk, hf⟩ := List.exists_of_findSome?_eq_some hfirst
    obtain ⟨hread, rfl⟩ := wordFault_eq_some.mp hf
    exact ⟨k, mem_readOrder_lt hk, hread, rfl⟩

/-- What a filter does when its input is not in place, whatever its radius and its output. -/
theorem stopsUnready_of_runFilter {i : Instr} {s : State} {r : Nat} {out : State → Nat → Nat → Pixel}
    (hexec : exec i s = runFilter r out s) : StopsUnready i s := by
  simp only [StopsUnready, hexec, runFilter_eq_fault]
  refine ⟨fun hw => ?_, fun hw hh => ?_, fun hd hcap => filterFault_of_bufferFault hd hcap,
    fun hd hfit n hn hnone => ?_⟩
  · exact filterFault_of_dimensionFault (by simp [dimensionFault, registerFault, hw])
  · exact filterFault_of_dimensionFault (by simp [dimensionFault, registerFault, hw, hh])
  · rw [filterFault_of_fits hd hfit]
    exact findSome_readOrder_of_unwritten r hn hnone

/-! ## The buffer a filter writes (41_point_filter_unit R100) -/

theorem sameDimensions_filterResult (out : State → Nat → Nat → Pixel) (s : State) :
    SameDimensions s (filterResult out s) :=
  ⟨rfl, rfl, (Memory.fill_populated _ _).2⟩

theorem exec_filter_of_ready {i : Instr} {s : State} {r : Nat} {out : State → Nat → Nat → Pixel}
    (hexec : exec i s = runFilter r out s) (hready : FilterReady s) :
    exec i s = .next (filterResult out s) :=
  hexec.trans (runFilter_eq_next.mpr ⟨hready, rfl⟩)

/-- With its input in place a filter finds every word of the buffer written. -/
theorem read_fb0_of_ready {s : State} {i : Nat} (hready : FilterReady s) (hi : i < inWidth s * inHeight s) :
    Memory.read s.fb0 i = some (srcPixel s (i % inWidth s) (i / inWidth s)) := by
  obtain ⟨-, -, hwritten⟩ := hready
  obtain ⟨p, hp⟩ := Option.isSome_iff_exists.mp (hwritten i hi)
  rw [srcPixel_number hi hp, hp]

/-- Settles O25: the word written at each number is the source word of that number. -/
theorem noopCopies : Obligations.NoopCopies := by
  refine fun m s => ⟨fun hready => ?_, stopsUnready_of_runFilter rfl⟩
  refine ⟨filterResult outNoop s, exec_filter_of_ready rfl hready,
    sameDimensions_filterResult _ s, fun i hi => ?_⟩
  rw [read_filterResult_number _ s hi, read_fb0_of_ready hready hi, outNoop]

/-! ## The grey filter (41_point_filter_unit R103) -/

theorem read_filtGray {s : State} {i : Nat} {p : Pixel} (hi : i < inWidth s * inHeight s)
    (hp : Memory.read s.fb0 i = some p) :
    Memory.read (filterResult outGray s).fb1 i = some (grey (luma p)) := by
  rw [read_filterResult_number _ s hi, outGray, srcPixel_number hi hp]

/-- Settles O26: the word written is the grey of the luma of the word read. -/
theorem grayIsLuma : Obligations.GrayIsLuma := by
  refine fun m s => ⟨fun hready => ?_, stopsUnready_of_runFilter rfl⟩
  refine ⟨filterResult outGray s, exec_filter_of_ready rfl hready,
    sameDimensions_filterResult _ s, fun i p hi hp => ⟨luma p, ?_, read_filtGray hi hp⟩⟩
  rw [luma_toNat, Nat.shiftRight_eq_div_pow]

/-- Settles O27: the luma of a grey is its value. -/
theorem grayKeepsGrey : Obligations.GrayKeepsGrey := by
  refine fun m s hready => ⟨filterResult outGray s, exec_filter_of_ready rfl hready,
    fun i v hi hp => ?_⟩
  rw [read_filtGray hi hp]
  exact congrArg (fun l => some (grey l)) (luma_grey v)

/-! ## The edge filter (41_point_filter_unit R104 to R107) -/

/-- The magnitude in the integers. -/
theorem magnitude_eq_ofInt (g : Nat → Nat → Int) (x y : Nat) :
    magnitude g x y = BitVec.ofInt 8 (min (|gradientX g x y| + |gradientY g x y|) 255) := by
  rw [magnitude, ← BitVec.ofInt_natCast]
  push_cast
  rfl

/-- The magnitude at a pixel depends on the grey map next to that pixel alone. -/
theorem magnitude_congr {g k : Nat → Nat → Int} {x y : Nat}
    (h : ∀ a b, a ≤ x + 1 → b ≤ y + 1 → g a b = k a b) : magnitude g x y = magnitude k x y := by
  simp (disch := omega) only [magnitude, gradientX, gradientY, h]

theorem outEdge_of_border {s : State} {x y : Nat}
    (hb : ¬ (1 ≤ x ∧ x + 1 < inWidth s ∧ 1 ≤ y ∧ y + 1 < inHeight s)) : outEdge s x y = black := by
  simp [outEdge, interior_eq_false hb]

theorem outEdge_of_interior {s : State} {x y : Nat}
    (hin : 1 ≤ x ∧ x + 1 < inWidth s ∧ 1 ≤ y ∧ y + 1 < inHeight s) :
    outEdge s x y = grey (magnitude (greyMap s) x y) :=
  if_pos (interior_iff.mpr hin)

theorem greyMap_of_read {s : State} {x y : Nat} {p : Pixel}
    (hp : Memory.read s.fb0 (y * inWidth s + x) = some p) : greyMap s x y = byteInt (luma p) := by
  rw [greyMap, srcPixel_eq hp]

theorem black_eq : black = 0xFF000000#32 := by decide

/-- Settles O28: the ring is black, and the interior the magnitude, for which the given map and the model's
agree on the pixels of the buffer. -/
theorem edgeResult : Obligations.EdgeResult := by
  refine fun m s => ⟨stopsUnready_of_runFilter rfl, fun hready => ?_⟩
  refine ⟨filterResult outEdge s, exec_filter_of_ready rfl hready,
    sameDimensions_filterResult _ s, fun x y hx hy hring => ?_, fun g hg x y hx hxw hy hyh => ?_⟩
  · have hb : ¬ (1 ≤ x ∧ x + 1 < inWidth s ∧ 1 ≤ y ∧ y + 1 < inHeight s) := by
      unfold inWidth inHeight
      omega
    exact (read_filterResult _ s hx hy).trans (by rw [outEdge_of_border hb, black_eq])
  · have hgrey : ∀ a b, a ≤ x + 1 → b ≤ y + 1 → greyMap s a b = g a b := by
      intro a b ha hb
      have haw : a < inWidth s := lt_of_le_of_lt ha hxw
      have hbh : b < inHeight s := lt_of_le_of_lt hb hyh
      have hp := read_fb0_of_ready hready (pixel_number haw hbh).1
      rw [greyMap_of_read hp, hg a b _ haw hbh hp, byteInt, luma_toNat]
    have hread := read_filterResult outEdge s (Nat.lt_of_succ_lt hxw) (Nat.lt_of_succ_lt hyh)
    rw [outEdge_of_interior ⟨hx, hxw, hy, hyh⟩, magnitude_congr hgrey, magnitude_eq_ofInt] at hread
    exact hread

/-- Opposite weights cancel on a constant map. -/
theorem magnitude_const (c : Int) (x y : Nat) : magnitude (fun _ _ => c) x y = 0#8 := by
  have hx : gradientX (fun _ _ => c) x y = 0 := by unfold gradientX; ring
  have hy : gradientY (fun _ _ => c) x y = 0 := by unfold gradientY; ring
  rw [magnitude, hx, hy]
  rfl

/-- Settles O29: the ring is black, and in the interior the grey map is constant around each pixel. -/
theorem edgeOfFlatFieldIsBlack : Obligations.EdgeOfFlatFieldIsBlack := by
  refine fun m s p hready hflat => ⟨filterResult outEdge s, exec_filter_of_ready rfl hready,
    fun i hi => ?_⟩
  rw [read_filterResult_number _ s hi, ← black_eq]
  by_cases hin : 1 ≤ i % inWidth s ∧ i % inWidth s + 1 < inWidth s ∧ 1 ≤ i / inWidth s ∧
      i / inWidth s + 1 < inHeight s
  · have hgrey : ∀ a b, a ≤ i % inWidth s + 1 → b ≤ i / inWidth s + 1 →
        greyMap s a b = byteInt (luma p) := by
      intro a b ha hb
      obtain ⟨-, hw, -, hh⟩ := hin
      exact greyMap_of_read (hflat _ (pixel_number (lt_of_le_of_lt ha hw) (lt_of_le_of_lt hb hh)).1)
    rw [outEdge_of_interior hin, magnitude_congr hgrey, magnitude_const]
    rfl
  · rw [outEdge_of_border hin]

/-! ## Opacity (41_point_filter_unit R108, 20_memory R47) -/

theorem alpha_pack (a r g b : Byte) : alpha (pack a r g b) = a := (channels_pack a r g b).1

theorem alpha_outGray (s : State) (x y : Nat) : alpha (outGray s x y) = 0xFF#8 := alpha_pack _ _ _ _

theorem alpha_outEdge (s : State) (x y : Nat) : alpha (outEdge s x y) = 0xFF#8 := by
  unfold outEdge
  split_ifs <;> exact alpha_pack _ _ _ _

theorem alpha_outConvolution_of_interior {k : Kernel} {s : State} {x y : Nat}
    (hin : interior (kernelRadius k) (inWidth s) (inHeight s) x y = true) :
    alpha (outConvolution k s x y) = 0xFF#8 := by
  rw [outConvolution, if_pos hin]
  exact alpha_pack _ _ _ _

/-- A convolution computes an opaque pixel or copies the source pixel. -/
theorem alpha_outConvolution_of_opaque {k : Kernel} {s : State} {x y : Nat}
    (hsrc : alpha (srcPixel s x y) = 0xFF#8) : alpha (outConvolution k s x y) = 0xFF#8 := by
  by_cases hin : interior (kernelRadius k) (inWidth s) (inHeight s) x y = true
  · exact alpha_outConvolution_of_interior hin
  · rw [outConvolution, if_neg hin]
    exact hsrc

theorem alpha_srcPixel_of_read {s : State} {n : Nat} (hn : n < inWidth s * inHeight s)
    (h : ∃ p, Memory.read s.fb0 n = some p ∧ alpha p = 0xFF#8) :
    alpha (srcPixel s (n % inWidth s) (n / inWidth s)) = 0xFF#8 := by
  obtain ⟨p, hp, halpha⟩ := h
  rw [srcPixel_number hn hp, halpha]

/-- Settles O35: each filter's output function gives an opaque pixel where it computes one, and where the
source pixel is opaque. -/
theorem outputsOpaque : Obligations.OutputsOpaque := by
  intro m i s hi hready
  simp only [List.mem_cons, List.not_mem_nil, or_false] at hi
  rcases hi with rfl | rfl | rfl | rfl | rfl | rfl <;>
    refine ⟨_, exec_filter_of_ready rfl hready, fun n hn => ⟨_, read_filterResult_number _ s hn, ?_⟩⟩
  · exact ⟨by simp, by simp, by simp, alpha_srcPixel_of_read hn⟩
  · have hgray := alpha_outGray s (n % inWidth s) (n / inWidth s)
    exact ⟨fun _ => hgray, fun _ _ => hgray, fun _ _ => hgray, fun _ => hgray⟩
  · have hedge := alpha_outEdge s (n % inWidth s) (n / inWidth s)
    exact ⟨fun _ => hedge, fun _ _ => hedge, fun _ _ => hedge, fun _ => hedge⟩
  · exact ⟨by simp, fun _ => alpha_outConvolution_of_interior (k := blurKernel), by simp,
      alpha_outConvolution_of_opaque ∘ alpha_srcPixel_of_read hn⟩
  · exact ⟨by simp, by simp, fun _ => alpha_outConvolution_of_interior (k := sharpenKernel),
      alpha_outConvolution_of_opaque ∘ alpha_srcPixel_of_read hn⟩
  · exact ⟨by simp, by simp, fun _ => alpha_outConvolution_of_interior (k := embossKernel),
      alpha_outConvolution_of_opaque ∘ alpha_srcPixel_of_read hn⟩

/-! ## The frame and the operands (41_point_filter_unit R100, 20_memory R54) -/

@[simp] theorem plane_filterResult (out : State → Nat → Nat → Pixel) (s : State) (p : Plane) :
    plane (filterResult out s) p = plane s p := by
  cases p <;> rfl

/-- Settles O36: the next state is a `filterResult`, which replaces `FB1` and its dimensions alone. -/
theorem filterFrame : Obligations.FilterFrame := by
  intro m i s t hi h
  obtain ⟨out, rfl⟩ := exec_filter_eq_next hi h
  exact ⟨rfl, fun p n => by rw [plane_filterResult], fun n => rfl⟩

/-- The state `v` with the input of a filter taken from `s`: the buffer, its dimensions and the capacity. -/
def withFilterInput (s v : State) : State :=
  { v with fb0 := s.fb0, fb0W := s.fb0W, fb0H := s.fb0H, cap := { v.cap with fbWords := s.cap.fbWords } }

/-- A state that has the input of `s` already. -/
theorem withFilterInput_eq_self {s v : State} (hfb0 : s.fb0 = v.fb0) (hw : s.fb0W = v.fb0W)
    (hh : s.fb0H = v.fb0H) (hcap : s.cap.fbWords = v.cap.fbWords) : withFilterInput s v = v := by
  rw [withFilterInput, hfb0, hw, hh, hcap]

/-- No condition of a filter looks beyond its input. -/
theorem filterFault_withFilterInput (r : Nat) (s v : State) :
    filterFault r (withFilterInput s v) = filterFault r s := rfl

/-- What a filter writes is computed from its input, if its output function reads nothing else. -/
theorem filterResult_withFilterInput {out : State → Nat → Nat → Pixel} {s v : State}
    (hout : out (withFilterInput s v) = out s) :
    filterResult out (withFilterInput s v) =
      { withFilterInput s v with
        fb1 := (filterResult out s).fb1, fb1W := (filterResult out s).fb1W,
        fb1H := (filterResult out s).fb1H } := by
  rw [filterResult, hout]
  rfl

/-- A filter is the frame of R100 with an output function that reads nothing but the input. -/
theorem exec_filter_of_input {m : Nat} {i : Instr} (hi : i ∈ filterCommands m) :
    ∃ r out, (∀ s, exec i s = runFilter r out s) ∧ ∀ s v, out (withFilterInput s v) = out s := by
  simp only [List.mem_cons, List.not_mem_nil, or_false] at hi
  rcases hi with rfl | rfl | rfl | rfl | rfl | rfl <;> exact ⟨_, _, fun _ => rfl, fun _ _ => rfl⟩

/-- Settles O37: a state with the same input has the same first failing condition, and without one the same
buffer and dimensions are written into it. -/
theorem filterDependsOnInputOnly : Obligations.FilterDependsOnInputOnly := by
  intro m i s u hi hfb0 hw hh hcap
  rw [← withFilterInput_eq_self hfb0 hw hh hcap]
  obtain ⟨r, out, hexec, hout⟩ := exec_filter_of_input hi
  simp only [hexec]
  refine ⟨fun f => ?_, fun t h => ?_⟩
  · rw [runFilter_eq_fault, runFilter_eq_fault, filterFault_withFilterInput]
  · obtain ⟨hready, rfl⟩ := runFilter_eq_next.mp h
    have hready' : FilterReady (withFilterInput s u) := by
      rwa [← filterFault_eq_none r, filterFault_withFilterInput, filterFault_eq_none]
    exact runFilter_eq_next.mpr ⟨hready', (filterResult_withFilterInput (hout s u)).symm⟩

end Sys2Proof.Machine

/-! PROOFS. The statements of 42_convolution_filter_bank: the division of the accumulator, what each of the
three kernels computes, and a frame with no interior. -/

namespace Sys2Proof.Machine

/-! ## The division toward zero (42_convolution_filter_bank R131, 40_color_space_converter section 1.1) -/

theorem clamp8_of_nonpos {v : Int} (h : v ≤ 0) : clamp8 v = 0#8 := by
  rcases h.lt_or_eq with hneg | rfl
  · exact clamp8_of_neg hneg
  · rfl

/-- The two quotients differ for a negative dividend alone, and there neither is positive. -/
theorem clamp8_tdiv_eq_fdiv (v : Int) {n : Int} (hn : 0 < n) :
    clamp8 (Int.tdiv v n) = clamp8 (Int.fdiv v n) := by
  rcases le_or_gt 0 v with hv | hv
  · rw [Int.fdiv_eq_tdiv_of_nonneg hv hn.le]
  · have ht : Int.tdiv v n ≤ 0 := (Int.tdiv_le_tdiv hn hv.le).trans_eq (Int.zero_tdiv n)
    have hf : Int.fdiv v n < 0 := Int.fdiv_neg_of_neg_of_pos hv hn
    rw [clamp8_of_nonpos ht, clamp8_of_neg hf]

/-- Settles O19: the divisors 10^6 and 256 are positive and nothing but 0 is added before the clamp. -/
theorem truncationDirectionUnobservable : Obligations.TruncationDirectionUnobservable := by
  refine ⟨fun v => clamp8_tdiv_eq_fdiv v (by decide), fun c s x y => ?_⟩
  rw [Int.add_zero, ← clamp8_tdiv_eq_fdiv _ (by decide), convolved]
  exact congrArg clamp8 (Int.add_zero _)

/-! ## The output of a convolution (42_convolution_filter_bank R121, R122, R130 to R132) -/

theorem outConvolution_of_border {k : Kernel} {s : State} {x y : Nat}
    (hb : ¬ (kernelRadius k ≤ x ∧ x + kernelRadius k < inWidth s ∧
      kernelRadius k ≤ y ∧ y + kernelRadius k < inHeight s)) :
    outConvolution k s x y = srcPixel s x y := by
  simp [outConvolution, interior_eq_false hb]

theorem outConvolution_of_interior {k : Kernel} {s : State} {x y : Nat}
    (hin : kernelRadius k ≤ x ∧ x + kernelRadius k < inWidth s ∧
      kernelRadius k ≤ y ∧ y + kernelRadius k < inHeight s) :
    outConvolution k s x y =
      pack opaqueAlpha (convolved k red s x y) (convolved k green s x y) (convolved k blue s x y) :=
  if_pos (interior_iff.mpr hin)

/-- The accumulator over given weights and given source pixels that agree with the kernel and the buffer where
the kernel lies. -/
theorem accumulate_eq_sum {k : Kernel} {weight : Nat → Nat → Int} {src : Nat → Nat → Pixel}
    {s : State} {x y : Nat}
    (hw : ∀ ky kx, ky < k.size → kx < k.size → kernelWeight k ky kx = weight ky kx)
    (hsrc : ∀ a b, a ≤ x + kernelRadius k → b ≤ y + kernelRadius k → srcPixel s a b = src a b)
    (c : Pixel → Byte) :
    accumulate k c s x y = ∑ ky ∈ Finset.range k.size, ∑ kx ∈ Finset.range k.size,
      weight ky kx * ((c (src (x + kx - kernelRadius k) (y + ky - kernelRadius k))).toNat : Int) := by
  have hspan : ∀ j < k.size, j ≤ 2 * kernelRadius k := fun j hj => by unfold kernelRadius; omega
  simp only [accumulate, sumRange_eq]
  refine Finset.sum_congr rfl fun ky hky => Finset.sum_congr rfl fun kx hkx => ?_
  have hy := Finset.mem_range.mp hky
  have hx := Finset.mem_range.mp hkx
  have hlx := hspan kx hx
  have hly := hspan ky hy
  rw [hw ky kx hy hx, hsrc _ _ (by omega) (by omega), byteInt]

/-- With its input in place a filter finds the word of each pixel written. -/
theorem read_fb0_pixel {s : State} {x y : Nat} (hready : FilterReady s) (hx : x < inWidth s)
    (hy : y < inHeight s) : Memory.read s.fb0 (y * inWidth s + x) = some (srcPixel s x y) := by
  obtain ⟨hlt, hmod, hdiv⟩ := pixel_number hx hy
  rw [read_fb0_of_ready hready hlt, hmod, hdiv]

/-- What the command of a kernel does when its input is in place, whatever the kernel. -/
theorem convolvesWith_of_ready {i : Instr} {k : Kernel} {weight : Nat → Nat → Int} {s : State}
    (hexec : exec i s = runConvolution k s) (hready : FilterReady s)
    (hw : ∀ ky kx, ky < k.size → kx < k.size → kernelWeight k ky kx = weight ky kx) :
    ConvolvesWith i k.size weight k.divisor k.bias s := by
  refine ⟨filterResult (outConvolution k) s, exec_filter_of_ready hexec hready,
    sameDimensions_filterResult _ s, fun x y hx hy hb => ?_,
    fun src hsrc x y hx hxw hy hyh => ?_⟩
  · have hread := read_filterResult (outConvolution k) s hx hy
    rw [outConvolution_of_border hb] at hread
    exact hread.trans (read_fb0_pixel hready hx hy).symm
  · have hpixel : ∀ a b, a ≤ x + kernelRadius k → b ≤ y + kernelRadius k →
        srcPixel s a b = src a b :=
      fun a b ha hb => srcPixel_eq (hsrc a b (lt_of_le_of_lt ha hxw) (lt_of_le_of_lt hb hyh))
    have hread := read_filterResult (outConvolution k) s (lt_of_le_of_lt (Nat.le_add_right x _) hxw)
      (lt_of_le_of_lt (Nat.le_add_right y _) hyh)
    simp only [outConvolution_of_interior ⟨hx, hxw, hy, hyh⟩, convolved,
      accumulate_eq_sum hw hpixel] at hread
    exact hread

/-- Settles O30: the kernel of Blur has the OPEN weights inside its 5×5 square. -/
theorem blurResult : Obligations.BlurResult := fun _ _ =>
  ⟨fun hready => convolvesWith_of_ready (k := blurKernel) rfl hready fun _ _ => kernelWeight_rows 5 _ 256 0,
    stopsUnready_of_runFilter rfl⟩

/-- Settles O31: the kernel of Emboss has the OPEN weights inside its 3×3 square. -/
theorem embossResult : Obligations.EmbossResult := fun _ _ =>
  ⟨fun hready => convolvesWith_of_ready (k := embossKernel) rfl hready fun _ _ => kernelWeight_rows 3 _ 1 128,
    stopsUnready_of_runFilter rfl⟩

/-! ## The sharpening kernel (42_convolution_filter_bank R124, R127) -/

/-- The sum over the square of Sharpen, whose corners weigh nothing. -/
theorem sum_sharpenKernel (f : Nat → Nat → Int) :
    ∑ ky ∈ Finset.range 3, ∑ kx ∈ Finset.range 3, kernelWeight sharpenKernel ky kx * f ky kx =
      5 * f 1 1 - f 0 1 - f 1 0 - f 1 2 - f 2 1 := by
  simp only [Finset.sum_range_succ, Finset.sum_range_zero, kernelWeight, sharpenKernel, List.getD_cons_zero,
    List.getD_cons_succ]
  ring

/-- Settles O32: the convolution of the kernel with its own weights, its sum written out. -/
theorem sharpenResult : Obligations.SharpenResult := by
  refine fun m s => ⟨stopsUnready_of_runFilter rfl, fun hready => ?_⟩
  have hconvolves : ConvolvesWith (.filtSharpen m) 3 (kernelWeight sharpenKernel) 1 0 s :=
    convolvesWith_of_ready (k := sharpenKernel) rfl hready fun _ _ _ _ => rfl
  obtain ⟨t, ht, hdim, hborder, hinterior⟩ := hconvolves
  refine ⟨t, ht, hdim, hborder, fun src hsrc x y hx hxw hy hyh => ?_⟩
  have hread := hinterior src hsrc x y hx hxw hy hyh
  simp only [sum_sharpenKernel, Int.tdiv_one, Int.add_zero] at hread
  exact hread

/-- Sharpen's weights add up to 1. -/
theorem clamp8_sharpen_const (b : Byte) :
    clamp8 (5 * (b.toNat : Int) - b.toNat - b.toNat - b.toNat - b.toNat) = b := by
  have hsum : 5 * (b.toNat : Int) - b.toNat - b.toNat - b.toNat - b.toNat = byteInt b := by
    rw [byteInt]
    ring
  rw [hsum, clamp8_byteInt]

/-- A pixel is its four channels packed. -/
theorem pack_channels (p : Pixel) : pack (alpha p) (red p) (green p) (blue p) = p := by
  obtain ⟨ha, hr, hg, hb⟩ := channels_toNat p
  apply BitVec.eq_of_toNat_eq
  rw [pack_toNat]
  omega

/-- Settles O33: the border is copied, and in the interior every channel is sharpened among its equals. -/
theorem sharpenKeepsFlatField : Obligations.SharpenKeepsFlatField := by
  intro m s p hready hopaque hflat
  obtain ⟨t, ht, -, hborder, hinterior⟩ := (sharpenResult m s).2 hready
  refine ⟨t, ht, fun i hi => ?_⟩
  obtain ⟨hx, hy, hnumber⟩ := pixel_of_number hi
  rw [← hnumber]
  by_cases hin : 1 ≤ i % inWidth s ∧ i % inWidth s + 1 < inWidth s ∧ 1 ≤ i / inWidth s ∧
      i / inWidth s + 1 < inHeight s
  · obtain ⟨hx₁, hxw, hy₁, hyh⟩ := hin
    have hsrc : ∀ a b, a < inWidth s → b < inHeight s → Memory.read s.fb0 (b * inWidth s + a) = some p :=
      fun a b ha hb => hflat _ (pixel_number ha hb).1
    have hread := hinterior (fun _ _ => p) hsrc _ _ hx₁ hxw hy₁ hyh
    simp only [clamp8_sharpen_const] at hread
    rwa [← hopaque, pack_channels] at hread
  · exact (hborder _ _ hx hy hin).trans (hflat _ (pixel_number hx hy).1)

/-! ## A frame with no interior (42_convolution_filter_bank R129) -/

/-- Without an interior a convolution reads and writes what the copy does. -/
theorem runConvolution_of_small {k : Kernel} {s : State}
    (hs : inWidth s ≤ 2 * kernelRadius k ∨ inHeight s ≤ 2 * kernelRadius k) :
    runConvolution k s = runFilter 0 outNoop s := by
  have hfault : filterFault (kernelRadius k) s = filterFault 0 s := by
    rw [filterFault, readOrder_of_small hs, filterFault]
  have hout : outConvolution k s = outNoop s := by
    funext x y
    exact outConvolution_of_border (by omega)
  rw [runConvolution, runFilter, runFilter, hfault, filterResult, filterResult, hout]

/-- Settles O34: the kernels have radius 2, 1 and 1. -/
theorem noInteriorActsAsNoop : Obligations.NoInteriorActsAsNoop := fun _ _ _ =>
  ⟨runConvolution_of_small (k := blurKernel), runConvolution_of_small (k := sharpenKernel),
    runConvolution_of_small (k := embossKernel)⟩

end Sys2Proof.Machine

/-! PROOFS. The statements of 43_rolling_statistics_accumulator: what a record writes and which samples stay
valid, the frame rate and the averages over them, the reset of the tracker, and the frames. -/

namespace Sys2Proof.Machine

/-! ## The record (43_rolling_statistics_accumulator R141) -/

theorem registerFault_eq_some {α : Type} {c : RegCell α} {r : RegName} {f : Fault} :
    registerFault c r = some f ↔ c.written = false ∧ f = .unwritten (.reg r) := by
  unfold registerFault
  split_ifs with h <;> simp [h, eq_comm]

/-- The first fault of a list of conditions is the fault of one of them. -/
theorem some_mem_of_firstFault {l : List (Option Fault)} {f : Fault} (h : firstFault l = some f) :
    some f ∈ l := by
  induction l with
  | nil => cases h
  | cons c l ih =>
    cases c with
    | none => exact List.mem_cons_of_mem _ (ih h)
    | some e => exact h ▸ List.mem_cons_self

/-- The one fault of `TRK.RECORD` names a sample register. -/
theorem sampleFault_names_sample {s : State} {f : Fault} (h : sampleFault s = some f) :
    ∃ r, r ∈ [RegName.sample0, .sample1, .sample2, .sample3, .sample4] ∧ f = .unwritten (.reg r) := by
  have hmem := some_mem_of_firstFault h
  simp only [List.mem_cons, List.not_mem_nil, or_false] at hmem
  rcases hmem with h | h | h | h | h <;>
    exact ⟨_, by simp, (registerFault_eq_some.mp h.symm).2⟩

theorem exec_trkRecord_eq_fault {m : Nat} {s : State} {f : Fault} :
    exec (.trkRecord m) s = .fault f ↔ sampleFault s = some f :=
  finish_eq_fault

/-- The fixed answer of `TIME` is the answer. -/
theorem timeAnswer_of_fixed {s : State} {d : Dur} (h : s.timeNext = some d) : timeAnswer s = d := by
  rw [timeAnswer, h]

/-! ## The window (43_rolling_statistics_accumulator R142, R146) -/

/-- Recording appends a sample and keeps the last `N`. -/
theorem validSamples_push_eq_drop {t : Tracker} (x : Slot) (h : TrackerInvariant t) :
    validSamples (pushSlot t x) = (validSamples t ++ [x]).drop (t.fill + 1 - t.n) := by
  have hlen := validSamples_length t
  rw [validSamples_push x h]
  obtain ⟨hn, -, hfill, -⟩ := h
  split_ifs with hlt
  · rw [show t.fill + 1 - t.n = 0 by omega, List.drop_zero]
  · rw [show t.fill + 1 - t.n = 1 by omega, List.drop_append_of_le_length (by omega), List.drop_one]

/-- Recording a list appends its slots and keeps the last `N` samples. -/
theorem validSamples_foldl_push (xs : List Slot) {t : Tracker} (h : TrackerInvariant t) :
    validSamples (xs.foldl pushSlot t) =
      (validSamples t ++ xs).drop (t.fill + xs.length - t.n) := by
  induction xs generalizing t with
  | nil =>
    obtain ⟨-, -, hfill, -⟩ := h
    simp [Nat.sub_eq_zero_of_le hfill]
  | cons x xs ih =>
    have hlen := validSamples_length t
    have hdropped : t.fill + 1 - t.n ≤ (validSamples t ++ [x]).length := by simp; omega
    have hcount : t.fill + 1 - t.n + (min (t.fill + 1) t.n + xs.length - t.n) =
        t.fill + (xs.length + 1) - t.n := by omega
    rw [List.foldl_cons, ih (pushSlot_invariant x h), validSamples_push_eq_drop x h,
      ← List.drop_append_of_le_length hdropped, List.drop_drop, List.append_assoc,
      List.singleton_append, List.length_cons, ← hcount]
    rfl

/-- Settles O43: before the first record no sample is valid. -/
theorem windowIsTheLastRecords : Obligations.WindowIsTheLastRecords := by
  intro t xs hinv hempty
  have hnone : validSamples t = [] := List.length_eq_zero_iff.mp ((validSamples_length t).trans hempty)
  rw [validSamples_foldl_push xs hinv, hnone, hempty, List.nil_append, Nat.zero_add]

/-! ## The oldest and the newest sample (43_rolling_statistics_accumulator R142) -/

theorem validSamples_getElem? {t : Tracker} {i : Nat} (hi : i < t.fill) :
    (validSamples t)[i]? = some (slotAt t (validSlot t i)) := by
  have hlen : i < (validSamples t).length := by rwa [validSamples_length]
  rw [List.getElem?_eq_getElem hlen, validSamples_getElem]

theorem validSamples_head? {t : Tracker} (h : 0 < t.fill) :
    (validSamples t).head? = some (oldestSlot t) := by
  rw [List.head?_eq_getElem?, validSamples_getElem? h, validSlot, Nat.cast_zero, add_zero, oldestSlot]

theorem validSamples_getLast? {t : Tracker} (h : 0 < t.fill) :
    (validSamples t).getLast? = some (newestSlot t) := by
  have hslot : (t.pos : Int) - t.fill + ((t.fill - 1 : Nat) : Int) = t.pos - 1 := by omega
  rw [List.getLast?_eq_getElem?, validSamples_length, validSamples_getElem? (by omega), validSlot, hslot,
    newestSlot]

/-! ## The frame rate (43_rolling_statistics_accumulator R143, R148) -/

theorem framerateResult_of_lt_two {s : State} (h : s.trk.fill < 2) :
    framerateResult s = writeResult s Dur.zero :=
  if_pos h

theorem framerateResult_of_elapsed {s : State} (hfill : 2 ≤ s.trk.fill)
    (h : (oldestSlot s.trk).t.val < (newestSlot s.trk).t.val) :
    framerateResult s =
      writeResult s (durRate (s.trk.fill - 1) (oldestSlot s.trk).t (newestSlot s.trk).t h) := by
  rw [framerateResult, if_neg (by omega), dif_pos h]

theorem framerateResult_written (s : State) : (framerateResult s).result.written = true := by
  unfold framerateResult
  split_ifs <;> rfl

@[simp] theorem framerateResult_trk (s : State) : (framerateResult s).trk = s.trk := by
  rw [framerateResult_frame]

/-! ## The averages (43_rolling_statistics_accumulator R144) -/

theorem averageResult_of_empty (d : Slot → Dur) {s : State} (h : s.trk.fill = 0) :
    averageResult d s = writeResult s Dur.zero :=
  if_pos h

theorem averageResult_of_nonempty (d : Slot → Dur) {s : State} (h : s.trk.fill ≠ 0) :
    averageResult d s = writeResult s (durMean ((validSamples s.trk).map d) s.trk.fill) :=
  if_neg h

theorem averageResult_written (d : Slot → Dur) (s : State) :
    (averageResult d s).result.written = true := by
  unfold averageResult
  split_ifs <;> rfl

@[simp] theorem averageResult_trk (d : Slot → Dur) (s : State) : (averageResult d s).trk = s.trk := by
  rw [averageResult_frame]

/-- The sum of a field over the valid samples, slot by slot. -/
theorem durSum_validSamples (d : Slot → Dur) (t : Tracker) :
    durSum ((validSamples t).map d) =
      ∑ j ∈ Finset.range t.fill, (d (slotAt t (validSlot t j))).val := by
  rw [durSum, validSamples, List.map_map, List.map_map]
  rfl

/-! ## The reset of the tracker (43_rolling_statistics_accumulator R145) -/

/-- Without a valid sample every query gives 0. -/
theorem exec_query_of_empty {k : Nat} {i : Instr} {s : State} (hi : i ∈ queryCommands k)
    (h : s.trk.fill = 0) : exec i s = .next (writeResult s Dur.zero) := by
  simp only [List.mem_cons, List.not_mem_nil, or_false] at hi
  rcases hi with rfl | rfl | rfl | rfl | rfl | rfl
  · exact congrArg Host.Outcome.next (framerateResult_of_lt_two (h.trans_lt Nat.zero_lt_two))
  all_goals exact congrArg Host.Outcome.next (averageResult_of_empty _ h)

/-! ## The frames (43_rolling_statistics_accumulator R140, 20_memory R53) -/

/-- The commands of the tracker. -/
abbrev trackerCommands (m : Nat) : List Instr := .trkRecord m :: queryCommands m ++ [.trkReset m]

/-- No command of the tracker writes a memory space. -/
theorem exec_tracker_keeps_memory {m : Nat} {i : Instr} {s t : State} (hi : i ∈ trackerCommands m)
    (h : exec i s = .next t) : plane t = plane s ∧ buffer t = buffer s := by
  obtain ⟨hconvert, hfilter⟩ : (∀ k, i ≠ .convert k) ∧ ∀ k, i ∉ filterCommands k := by
    simp only [List.mem_cons, List.mem_append, List.not_mem_nil, or_false] at hi
    rcases hi with (rfl | rfl | rfl | rfl | rfl | rfl | rfl) | rfl <;> simp
  obtain ⟨-, -, hpy, hpu, hpv, -, hfb0, hfb1, -, -⟩ := commandsRespectOwnership i s t h
  refine ⟨funext fun p => ?_, funext fun b => ?_⟩
  · cases p with
    | py => exact hpy
    | pu => exact hpu
    | pv => exact hpv
  · cases b with
    | fb0 => exact (hfb0 hconvert).1
    | fb1 => exact (hfb1 hfilter).1

/-- Settles O48: a record is `recordResult`, a query writes `RESULT` and the draws, and no command of the
tracker is one of those that write a memory space. -/
theorem trackerFrame : Obligations.TrackerFrame := by
  refine fun m s t => ⟨fun h => ?_, fun i hi h => ?_, fun i hi h => ?_⟩
  · obtain ⟨-, rfl⟩ := exec_trkRecord_eq_next.mp h
    rfl
  · obtain ⟨r, d, rfl⟩ := exec_query_eq_next hi h
    rfl
  · obtain ⟨hplane, hbuffer⟩ := exec_tracker_keeps_memory hi h
    exact ⟨fun p n => by rw [hplane], fun b n => by rw [hbuffer]⟩

/-! In a namespace of their own, since the model has definitions of the same names. -/
namespace Accumulator

/-- Settles O40: with the samples written the next state is `Machine.recordResult s`, whose capture time is the
answer of `TIME`; without them the first failing condition is that of a sample register. -/
theorem recordResult : Obligations.RecordResult := by
  refine fun m s => ⟨fun hw => ?_, fun hw => ?_⟩
  · exact ⟨Machine.recordResult s, timeAnswer s, exec_trkRecord_eq_next.mpr ⟨hw, rfl⟩,
      fun _ => timeAnswer_of_fixed, rfl, rfl, rfl, rfl, rfl, rfl⟩
  · have hfails : sampleFault s ≠ none := mt (sampleFault_eq_none s).mp (by simp [hw])
    obtain ⟨f, hf⟩ := Option.ne_none_iff_exists'.mp hfails
    obtain ⟨r, hr, rfl⟩ := sampleFault_names_sample hf
    exact ⟨r, hr, exec_trkRecord_eq_fault.mpr hf⟩

/-- Settles O45: the first and the last valid sample are the oldest and the newest slot, whose capture times the
command subtracts. -/
theorem framerateResult : Obligations.FramerateResult := by
  intro m s _
  refine ⟨Machine.framerateResult s, rfl, framerateResult_written s, framerateResult_trk s,
    fun hfew => ?_, fun htwo old new hold hnew helapsed => ?_⟩
  · rw [framerateResult_of_lt_two hfew]
    rfl
  · have hpos : 0 < s.trk.fill := Nat.zero_lt_two.trans_le htwo
    obtain rfl : oldestSlot s.trk = old := Option.some.inj ((validSamples_head? hpos).symm.trans hold)
    obtain rfl : newestSlot s.trk = new := Option.some.inj ((validSamples_getLast? hpos).symm.trans hnew)
    rw [framerateResult_of_elapsed htwo (sub_pos.mp helapsed), ← Nat.cast_pred hpos]
    rfl

/-- Settles O46: each of the five commands is `Machine.averageResult` of its field. -/
theorem averageResult : Obligations.AverageResult := by
  intro m s i d hi
  have hexec : exec i s = .next (Machine.averageResult d s) := by
    rcases hi with ⟨rfl, rfl⟩ | ⟨rfl, rfl⟩ | ⟨rfl, rfl⟩ | ⟨rfl, rfl⟩ | ⟨rfl, rfl⟩ <;> rfl
  refine ⟨_, hexec, averageResult_written d s, averageResult_trk d s, fun hempty => ?_, fun hsome => ?_⟩
  · rw [averageResult_of_empty d hempty]
    rfl
  · rw [averageResult_of_nonempty d hsome]
    exact congrArg (· / (s.trk.fill : Rat)) (durSum_validSamples d s.trk)

/-- Settles O47: the next state is `Machine.trackerResetResult s`, in which no sample is valid. -/
theorem trackerResetResult : Obligations.TrackerResetResult := fun _ _ s =>
  ⟨Machine.trackerResetResult s, rfl, rfl, rfl, fun _ hi => ⟨_, exec_query_of_empty hi rfl, rfl⟩⟩

end Accumulator

end Sys2Proof.Machine

/-! PROOFS. The statements of 60_exceptions: what a fault changes, which fault a command reports, what the host
is refused, and that nothing but a command does work. -/

namespace Sys2Proof.Machine

/-! ## Idleness, and who does work (60_exceptions R172) -/

/-- Settles O9: with no action and no recorded fault the step is the idle one. -/
theorem idleStepChangesNothing : Obligations.IdleStepChangesNothing := by
  intro s hl hm
  rw [step, hostStep, hl, hm]

/-- Settles O50: of everything an action can do, a command and the hardware reset alone touch these fields. -/
theorem onlyCommandsDoWork : Obligations.OnlyCommandsDoWork := by
  intro a s t hcmd hreset h
  rcases perform_eq_next h with ⟨v, i, hv, -, -⟩ | ⟨c, d, e, m, rfl⟩ | ⟨p, i, v, -, -, rfl⟩ |
    ⟨i, v, -, -, rfl⟩ | ⟨v, rfl⟩ | ⟨d, rfl⟩ | ⟨hr, -⟩
  case inl => exact absurd hv (hcmd v)
  case inr.inr.inl => rw [storeByte_frame]; exact ⟨rfl, rfl, rfl, rfl, rfl, rfl, rfl, rfl⟩
  case inr.inr.inr.inr.inr.inr => exact absurd hr hreset
  all_goals exact ⟨rfl, rfl, rfl, rfl, rfl, rfl, rfl, rfl⟩

/-! ## The fault mark (60_exceptions R165, R166) -/

/-- A command that completes leaves the mark alone. -/
theorem exec_keeps_faultMark {i : Instr} {s t : State} (h : exec i s = .next t) :
    t.faultMark = s.faultMark := by
  rcases exec_eq_next h with ⟨-, rfl⟩ | ⟨-, out, rfl⟩ | ⟨-, rfl⟩ | rfl | ⟨d, rfl⟩ | rfl
  case inr.inr.inr.inl => rw [framerateResult_frame]
  case inr.inr.inr.inr.inl => rw [averageResult_frame]
  all_goals rfl

/-- An action that completes leaves the mark alone, the hardware reset apart. -/
theorem perform_keeps_faultMark {a : HostAction} {s t : State} (hreset : a ≠ .reset)
    (h : perform a s = .next t) : t.faultMark = s.faultMark := by
  by_cases hcmd : ∃ v, a = .wr 0 v
  · obtain ⟨v, rfl⟩ := hcmd
    obtain ⟨i, -, hexec⟩ := issue_eq_next h
    exact exec_keeps_faultMark hexec
  · obtain ⟨-, -, -, -, -, -, hmark, -⟩ := onlyCommandsDoWork a s t (not_exists.mp hcmd) hreset h
    exact hmark

/-- Settles O11: the hardware reset empties the mark, and every other action needs it empty and keeps it. -/
theorem nextStateCarriesNoFault : Obligations.NextStateCarriesNoFault := by
  intro s t h
  rcases step_eq_next h with ⟨-, hm, rfl⟩ | ⟨a, rest, u, hl, hcan, hperform, rfl⟩
  · exact ⟨hm, fun hmarked => absurd hm hmarked⟩
  · rw [advanceHost_faultMark, hl]
    by_cases hreset : a = .reset
    · subst hreset
      cases hperform
      exact ⟨rfl, fun _ => rfl⟩
    · have hm : s.faultMark = none := hcan.resolve_right hreset
      exact ⟨(perform_keeps_faultMark hreset hperform).trans hm, fun hmarked => absurd hm hmarked⟩

/-- The hardware reset never faults. -/
theorem head_ne_reset_of_fault {s : State} {f : Fault} (h : step s = .fault f) :
    s.host.todo.head? ≠ some .reset := by
  intro hhead
  obtain ⟨rest, hl⟩ := List.head?_eq_some_iff.mp hhead
  rw [step, hostStep, hl] at h
  cases h

/-- A marked state answers its fault, unless the hardware reset is next. -/
theorem step_of_marked {s : State} {f : Fault} (hm : s.faultMark = some f)
    (hhead : s.host.todo.head? ≠ some .reset) : step s = .fault f := by
  unfold step hostStep
  cases hl : s.host.todo with
  | nil => simp [hm]
  | cons a rest => cases a <;> simp [hl, hm] at hhead ⊢

theorem recordFault_of_marked {s : State} {g : Fault} (hm : s.faultMark = some g) (f : Fault) :
    recordFault s f = s := by
  rw [recordFault, hm]

/-- Settles O10: the state after a fault differs in the mark alone, so that the hardware reset is no more next
than before, and the marked state answers the fault. -/
theorem faultChangesOnlyTheMark : Obligations.FaultChangesOnlyTheMark := by
  intro s f h
  have hhead := head_ne_reset_of_fault h
  rw [h, stateAfter]
  refine ⟨fun hm => ?_, fun g hg => ⟨?_, recordFault_of_marked hg f⟩⟩
  · rw [recordFault_of_unmarked hm]
    exact ⟨rfl, step_of_marked rfl hhead⟩
  · exact Host.Outcome.fault.inj (h.symm.trans (step_of_marked hg hhead))

/-! ## Unwritten registers (60_exceptions R162, R164 item 2) -/

/-- The condition of a register, from its written mark. -/
def markFault (c : Bool × RegName) : Option Fault :=
  if c.1 then none else some (.unwritten (.reg c.2))

theorem sampleFault_eq_firstFault (s : State) :
    sampleFault s = firstFault
      ([(s.smp.d0.written, RegName.sample0), (s.smp.d1.written, .sample1), (s.smp.d2.written, .sample2),
        (s.smp.d3.written, .sample3), (s.smp.d4.written, .sample4)].map markFault) := rfl

theorem cscRegisterFault_eq_firstFault (s : State) :
    cscRegisterFault s = firstFault
      ([(s.csc.w.written, RegName.cscW), (s.csc.h.written, .cscH), (s.csc.f.written, .cscF),
        (s.csc.yRs.written, .yRs), (s.csc.yPs.written, .yPs), (s.csc.uRs.written, .uRs),
        (s.csc.uPs.written, .uPs), (s.csc.vRs.written, .vRs), (s.csc.vPs.written, .vPs)].map markFault) :=
  rfl

/-- Of registers tested in order, the first unwritten one is the fault. -/
theorem firstFault_of_first_unwritten {l : List (Bool × RegName)} {b : Bool} {r : RegName}
    (h : l.find? (fun c => !c.1) = some (b, r)) :
    firstFault (l.map markFault) = some (.unwritten (.reg r)) := by
  induction l with
  | nil => cases h
  | cons c l ih =>
    obtain ⟨written, q⟩ := c
    cases written with
    | true => exact ih h
    | false => cases h; rfl

/-- Settles O44: the conditions of `TRK.RECORD` are those of the five registers, lowest number first. -/
theorem recordFaultPriority : Obligations.RecordFaultPriority := by
  intro m s b r h
  rw [exec_trkRecord_eq_fault, sampleFault_eq_firstFault]
  exact firstFault_of_first_unwritten h

/-! ## The faults of `CONVERT` (60_exceptions R164, 40_color_space_converter R87) -/

theorem convertFault_of_registerFault {s : State} {f : Fault} (h : cscRegisterFault s = some f) :
    convertFault s = some f := by
  rw [convertFault, h, firstFault_some_cons]

theorem convertFault_of_factorZero {s : State} (hw : cscWritten s = true) (hf : factor s = 0) :
    convertFault s = some .factorZero := by
  rw [convertFault, (cscRegisterFault_eq_none s).mpr hw, factorFault, if_pos hf, firstFault_none_cons,
    firstFault_some_cons]

theorem convertFault_of_bufferFault {s : State} (hw : cscWritten s = true) (hf : 1 ≤ factor s)
    (hcap : s.cap.fbWords < outWidth s * outHeight s) :
    convertFault s = some (.bufferIndex (outWidth s * outHeight s)) := by
  rw [convertFault, (cscRegisterFault_eq_none s).mpr hw, (factorFault_eq_none s).mpr hf, bufferFault,
    if_pos hcap, firstFault_none_cons, firstFault_none_cons, firstFault_some_cons]

/-- With a factor and a buffer that fits, the sample indices decide before the samples do. -/
theorem convertFault_of_fits {s : State} (hw : cscWritten s = true) (hf : 1 ≤ factor s)
    (hfit : outWidth s * outHeight s ≤ s.cap.fbWords) :
    convertFault s = firstFault
      [firstPixelFault (outWidth s) (outHeight s) (pixelIndexFault s),
        firstPixelFault (outWidth s) (outHeight s) (pixelByteFault s)] := by
  rw [convertFault, (cscRegisterFault_eq_none s).mpr hw, (factorFault_eq_none s).mpr hf,
    (bufferFault_eq_none s _).mpr hfit, firstFault_none_cons, firstFault_none_cons, firstFault_none_cons]

/-- The first failing pixel in row-major order. -/
theorem firstPixelFault_of_first {w h x y : Nat} {c : Nat → Nat → Option Fault} {f : Fault} (hx : x < w)
    (hy : y < h) (before : ∀ a b, a < w → b < h → b * w + a < y * w + x → c a b = none)
    (here : c x y = some f) : firstPixelFault w h c = some f := by
  obtain ⟨hn, hmod, hdiv⟩ := pixel_number hx hy
  refine findSome_range_first hn (fun j hj => ?_) (by rw [hmod, hdiv]; exact here)
  obtain ⟨ha, hb, hnumber⟩ := pixel_of_number (hj.trans hn)
  exact before _ _ ha hb (hnumber.trans_lt hj)

theorem planeIndexFault_of_le {s : State} {p : Plane} {i : Nat} (h : planeCapacity s p ≤ i) :
    planeIndexFault s p i = some (.planeIndex p i) :=
  if_neg (Nat.not_lt.mpr h)

theorem byteFault_of_unwritten {s : State} {p : Plane} {i : Nat} (h : Memory.read (plane s p) i = none) :
    byteFault s p i = some (.unwritten (.byte p i)) := by
  rw [byteFault, h]

theorem byteFault_of_written {s : State} {p : Plane} {i : Nat} (h : Memory.read (plane s p) i ≠ none) :
    byteFault s p i = none :=
  (byteFault_eq_none s p i).mpr (Option.isSome_iff_ne_none.mpr h)

/-- Y before U before V. -/
theorem pixelIndexFault_cases (s : State) (dx dy : Nat) :
    (s.cap.planeY ≤ lumaIndex s dx dy →
      pixelIndexFault s dx dy = some (.planeIndex .py (lumaIndex s dx dy))) ∧
    (lumaIndex s dx dy < s.cap.planeY → s.cap.planeU ≤ uIndex s dx dy →
      pixelIndexFault s dx dy = some (.planeIndex .pu (uIndex s dx dy))) ∧
    (lumaIndex s dx dy < s.cap.planeY → uIndex s dx dy < s.cap.planeU →
      s.cap.planeV ≤ vIndex s dx dy →
      pixelIndexFault s dx dy = some (.planeIndex .pv (vIndex s dx dy))) := by
  unfold pixelIndexFault
  refine ⟨fun hY => ?_, fun hY hU => ?_, fun hY hU hV => ?_⟩
  · rw [planeIndexFault_of_le (p := .py) hY, firstFault_some_cons]
  · rw [(planeIndexFault_eq_none s .py _).mpr hY, planeIndexFault_of_le (p := .pu) hU,
      firstFault_none_cons, firstFault_some_cons]
  · rw [(planeIndexFault_eq_none s .py _).mpr hY, (planeIndexFault_eq_none s .pu _).mpr hU,
      planeIndexFault_of_le (p := .pv) hV, firstFault_none_cons, firstFault_none_cons, firstFault_some_cons]

/-- Y before U before V. -/
theorem pixelByteFault_cases (s : State) (dx dy : Nat) :
    (Memory.read s.py (lumaIndex s dx dy) = none →
      pixelByteFault s dx dy = some (.unwritten (.byte .py (lumaIndex s dx dy)))) ∧
    (Memory.read s.py (lumaIndex s dx dy) ≠ none → Memory.read s.pu (uIndex s dx dy) = none →
      pixelByteFault s dx dy = some (.unwritten (.byte .pu (uIndex s dx dy)))) ∧
    (Memory.read s.py (lumaIndex s dx dy) ≠ none → Memory.read s.pu (uIndex s dx dy) ≠ none →
      Memory.read s.pv (vIndex s dx dy) = none →
      pixelByteFault s dx dy = some (.unwritten (.byte .pv (vIndex s dx dy)))) := by
  unfold pixelByteFault
  refine ⟨fun hY => ?_, fun hY hU => ?_, fun hY hU hV => ?_⟩
  · rw [byteFault_of_unwritten (p := .py) hY, firstFault_some_cons]
  · rw [byteFault_of_written (p := .py) hY, byteFault_of_unwritten (p := .pu) hU, firstFault_none_cons,
      firstFault_some_cons]
  · rw [byteFault_of_written (p := .py) hY, byteFault_of_written (p := .pu) hU,
      byteFault_of_unwritten (p := .pv) hV, firstFault_none_cons, firstFault_none_cons, firstFault_some_cons]

/-- `CONVERT` fails at the first pixel with an index out of range. -/
theorem convertFault_of_first_index {s : State} {dx dy : Nat} {f : Fault} (hw : cscWritten s = true)
    (hf : 1 ≤ factor s) (hfit : outWidth s * outHeight s ≤ s.cap.fbWords) (hx : dx < outWidth s)
    (hy : dy < outHeight s)
    (before : ∀ x y, x < outWidth s → y < outHeight s →
      y * outWidth s + x < dy * outWidth s + dx → IndicesInRange s x y)
    (here : pixelIndexFault s dx dy = some f) : convertFault s = some f := by
  have hindex : firstPixelFault (outWidth s) (outHeight s) (pixelIndexFault s) = some f :=
    firstPixelFault_of_first hx hy
      (fun x y hx hy hlt => (pixelIndexFault_eq_none s x y).mpr (before x y hx hy hlt)) here
  rw [convertFault_of_fits hw hf hfit, hindex, firstFault_some_cons]

/-- With every index in range `CONVERT` fails at the first pixel that lacks a sample. -/
theorem convertFault_of_first_sample {s : State} {dx dy : Nat} {f : Fault} (hw : cscWritten s = true)
    (hf : 1 ≤ factor s) (hfit : outWidth s * outHeight s ≤ s.cap.fbWords)
    (hrange : ∀ x y, x < outWidth s → y < outHeight s → IndicesInRange s x y) (hx : dx < outWidth s)
    (hy : dy < outHeight s)
    (before : ∀ x y, x < outWidth s → y < outHeight s →
      y * outWidth s + x < dy * outWidth s + dx → SamplesPresent s x y)
    (here : pixelByteFault s dx dy = some f) : convertFault s = some f := by
  have hindex : firstPixelFault (outWidth s) (outHeight s) (pixelIndexFault s) = none :=
    (firstPixelFault_eq_none _ _ _).mpr fun y hy x hx =>
      (pixelIndexFault_eq_none s x y).mpr (hrange x y hx hy)
  have hsample : firstPixelFault (outWidth s) (outHeight s) (pixelByteFault s) = some f :=
    firstPixelFault_of_first hx hy
      (fun x y hx hy hlt => (pixelByteFault_eq_none s x y).mpr (before x y hx hy hlt)) here
  rw [convertFault_of_fits hw hf hfit, hindex, hsample, firstFault_none_cons, firstFault_some_cons]

/-- Settles O21: the five conditions in order, and within a pixel the three planes in order. -/
theorem convertFaultPriority : Obligations.ConvertFaultPriority := by
  intro m s
  simp only [exec_convert_eq_fault]
  refine ⟨fun b r h => convertFault_of_registerFault ?_,
    convertFault_of_factorZero, convertFault_of_bufferFault,
    fun hw hf hfit dx dy hx hy before => ?_, fun hw hf hfit hrange dx dy hx hy before => ?_⟩
  · rw [cscRegisterFault_eq_firstFault]
    exact firstFault_of_first_unwritten h
  · have hfault {f} := convertFault_of_first_index (f := f) hw hf hfit hx hy before
    obtain ⟨hY, hU, hV⟩ := pixelIndexFault_cases s dx dy
    exact ⟨fun y => hfault (hY y), fun y u => hfault (hU y u), fun y u v => hfault (hV y u v)⟩
  · have hfault {f} := convertFault_of_first_sample (f := f) hw hf hfit hrange hx hy before
    obtain ⟨hY, hU, hV⟩ := pixelByteFault_cases s dx dy
    exact ⟨fun y => hfault (hY y), fun y u => hfault (hU y u), fun y u v => hfault (hV y u v)⟩

/-! ## The faults of a filter (60_exceptions R164 item 6; 20_memory R45, R53) -/

/-- A pixel of an earlier row comes before every pixel of a later one. -/
theorem number_lt_of_row_lt {w x y a b : Nat} (ha : a < w) (hb : b < y) : b * w + a < y * w + x :=
  calc b * w + a < (b + 1) * w := by rw [Nat.succ_mul]; omega
    _ ≤ y * w := Nat.mul_le_mul_right w hb
    _ ≤ y * w + x := Nat.le_add_right _ _

theorem pixelReads_of_border {r w h x y : Nat} (hx : x < w) (hy : y < h)
    (hb : ¬ (r ≤ x ∧ x + r < w ∧ r ≤ y ∧ y + r < h)) : pixelReads r w h (y * w + x) = [y * w + x] := by
  obtain ⟨-, hmod, hdiv⟩ := pixel_number hx hy
  simp [pixelReads, hmod, hdiv, interior_eq_false hb]

theorem pixelReads_of_interior {r w h x y : Nat} (hx : x < w) (hy : y < h)
    (hin : r ≤ x ∧ x + r < w ∧ r ≤ y ∧ y + r < h) :
    pixelReads r w h (y * w + x) = neighbourhood r w x y := by
  obtain ⟨-, hmod, hdiv⟩ := pixel_number hx hy
  rw [pixelReads, hmod, hdiv, if_pos (interior_iff.mpr hin)]

theorem wordFault_of_written {s : State} {i : Nat} (h : Memory.read s.fb0 i ≠ none) :
    wordFault s i = none :=
  (wordFault_eq_none s i).mpr (Option.isSome_iff_ne_none.mpr h)

theorem wordFault_of_unwritten {s : State} {i : Nat} (h : Memory.read s.fb0 i = none) :
    wordFault s i = some (.unwritten (.word .fb0 i)) :=
  wordFault_eq_some.mpr ⟨h, rfl⟩

/-- A pixel whose reads are all written makes no filter of that radius fail. -/
theorem findSome_pixelReads_of_present {r : Nat} {s : State} {x y : Nat} (hx : x < inWidth s)
    (hy : y < inHeight s) (h : ReadsPresent r s x y) :
    (pixelReads r (inWidth s) (inHeight s) (y * inWidth s + x)).findSome? (wordFault s) = none := by
  rw [List.findSome?_eq_none_iff]
  intro k hk
  by_cases hin : r ≤ x ∧ x + r < inWidth s ∧ r ≤ y ∧ y + r < inHeight s
  · rw [pixelReads_of_interior hx hy hin] at hk
    obtain ⟨ky, hky, kx, hkx, rfl⟩ := mem_neighbourhood.mp hk
    exact wordFault_of_written ((if_pos hin).mp h ky kx hky hkx)
  · rw [pixelReads_of_border hx hy hin, List.mem_singleton] at hk
    subst hk
    exact wordFault_of_written ((if_neg hin).mp h)

/-- At an interior pixel the word that is missing is the first of its neighbourhood in row-major order. -/
theorem findSome_pixelReads_of_interior {r : Nat} {s : State} {x y ky kx : Nat} (hx : x < inWidth s)
    (hy : y < inHeight s) (hin : r ≤ x ∧ x + r < inWidth s ∧ r ≤ y ∧ y + r < inHeight s)
    (hky : ky < 2 * r + 1) (hkx : kx < 2 * r + 1)
    (hnone : Memory.read s.fb0 ((y + ky - r) * inWidth s + (x + kx - r)) = none)
    (before : ∀ a b, a < 2 * r + 1 → b < 2 * r + 1 → b * (2 * r + 1) + a < ky * (2 * r + 1) + kx →
      Memory.read s.fb0 ((y + b - r) * inWidth s + (x + a - r)) ≠ none) :
    (pixelReads r (inWidth s) (inHeight s) (y * inWidth s + x)).findSome? (wordFault s) =
      some (.unwritten (.word .fb0 ((y + ky - r) * inWidth s + (x + kx - r)))) := by
  rw [pixelReads_of_interior hx hy hin, neighbourhood_findSome]
  refine findSome_range_first hky (fun b hb => ?_) (findSome_range_first hkx (fun a ha => ?_) ?_)
  · rw [List.findSome?_eq_none_iff]
    intro a ha
    have ha := List.mem_range.mp ha
    exact wordFault_of_written (before a b ha (hb.trans hky) (number_lt_of_row_lt ha hb))
  · exact wordFault_of_written (before a ky (ha.trans hkx) hky (Nat.add_lt_add_left ha _))
  · exact wordFault_of_unwritten hnone

/-- At a border pixel the word that is missing is its own. -/
theorem findSome_pixelReads_of_border {r : Nat} {s : State} {x y : Nat} (hx : x < inWidth s)
    (hy : y < inHeight s) (hb : ¬ (r ≤ x ∧ x + r < inWidth s ∧ r ≤ y ∧ y + r < inHeight s))
    (hnone : Memory.read s.fb0 (y * inWidth s + x) = none) :
    (pixelReads r (inWidth s) (inHeight s) (y * inWidth s + x)).findSome? (wordFault s) =
      some (.unwritten (.word .fb0 (y * inWidth s + x))) := by
  rw [pixelReads_of_border hx hy hb, List.findSome?_singleton, wordFault_of_unwritten hnone]

/-- A filter fails at the first pixel whose reads fail. -/
theorem filterFault_of_first_read {r n : Nat} {s : State} {f : Fault} (hd : dimensionsWritten s = true)
    (hfit : inWidth s * inHeight s ≤ s.cap.fbWords) (hn : n < inWidth s * inHeight s)
    (before : ∀ j < n, (pixelReads r (inWidth s) (inHeight s) j).findSome? (wordFault s) = none)
    (here : (pixelReads r (inWidth s) (inHeight s) n).findSome? (wordFault s) = some f) :
    filterFault r s = some f := by
  rw [filterFault_of_fits hd hfit, readOrder_findSome]
  exact findSome_range_first hn before here

/-- The radius of each filter's reads. -/
theorem exec_filter_radius {m : Nat} {i : Instr} {r : Nat}
    (h : (i, r) ∈ [(Instr.filtNoop m, 0), (.filtGray m, 0), (.filtEdge m, 1), (.filtBlur m, 2),
      (.filtSharpen m, 1), (.filtEmboss m, 1)]) :
    ∃ out, ∀ s, exec i s = runFilter r out s := by
  simp only [List.mem_cons, List.not_mem_nil, or_false, Prod.mk.injEq] at h
  rcases h with ⟨rfl, rfl⟩ | ⟨rfl, rfl⟩ | ⟨rfl, rfl⟩ | ⟨rfl, rfl⟩ | ⟨rfl, rfl⟩ | ⟨rfl, rfl⟩ <;>
    exact ⟨_, fun _ => rfl⟩

/-- A filter fails at the first pixel that lacks a word it reads. -/
theorem filterFault_of_first_lacking {r : Nat} {s : State} {x y : Nat} {f : Fault}
    (hd : dimensionsWritten s = true) (hfit : inWidth s * inHeight s ≤ s.cap.fbWords) (hx : x < inWidth s)
    (hy : y < inHeight s)
    (before : ∀ a b, a < inWidth s → b < inHeight s → b * inWidth s + a < y * inWidth s + x →
      ReadsPresent r s a b)
    (here : (pixelReads r (inWidth s) (inHeight s) (y * inWidth s + x)).findSome? (wordFault s) = some f) :
    filterFault r s = some f := by
  have hn := (pixel_number hx hy).1
  refine filterFault_of_first_read hd hfit hn (fun j hj => ?_) here
  obtain ⟨ha, hb, hnumber⟩ := pixel_of_number (hj.trans hn)
  rw [← hnumber] at hj ⊢
  exact findSome_pixelReads_of_present ha hb (before _ _ ha hb hj)

/-- Settles O38: the pixels in order, and at the first that lacks a word its own word or the first missing one
of its neighbourhood; with radius 0 each pixel reads its own word alone. -/
theorem filterFaultPriority : Obligations.FilterFaultPriority := by
  refine ⟨fun m i r s hi hd hfit x y hx hy before => ?_,
    fun m i s hi hd hfit n hn hnone before => ?_, fun m i s hi hw hh hcap => ?_⟩
  · obtain ⟨out, hexec⟩ := exec_filter_radius hi
    simp only [hexec, runFilter_eq_fault]
    have hfault {f} := filterFault_of_first_lacking (f := f) hd hfit hx hy before
    exact ⟨fun hb hnone => hfault (findSome_pixelReads_of_border hx hy hb hnone),
      fun hin ky kx hky hkx hnone hfirst =>
        hfault (findSome_pixelReads_of_interior hx hy hin hky hkx hnone hfirst)⟩
  · obtain ⟨out, hexec⟩ := exec_filter_radius (m := m) (r := 0) (by simpa using hi)
    rw [hexec, runFilter_eq_fault]
    refine filterFault_of_first_read hd hfit hn (fun j hj => ?_) ?_
    · rw [pixelReads_zero (hj.trans hn), List.findSome?_singleton, wordFault_of_written (before j hj)]
    · rw [pixelReads_zero hn, List.findSome?_singleton, wordFault_of_unwritten hnone]
  · obtain ⟨r, out, hexec⟩ := exec_filter hi
    have hproduct : inWidth s * inHeight s = 4294967296 := by rw [inWidth, inHeight, hw, hh]; rfl
    have hd : dimensionsWritten s = true := by rw [dimensionsWritten, hw, hh]; rfl
    rw [hexec, runFilter_eq_fault, ← hproduct]
    exact filterFault_of_bufferFault hd (by omega)

/-! ## Refusals at the host boundary (60_exceptions R171) -/

/-- No access goes to a register number of 20 or more. -/
theorem perform_of_no_register {n : Nat} (hn : 20 ≤ n) (v : Word) (d : Dur) (s : State) :
    perform (.wr n v) s = .refused (.noSuchRegister n) ∧
      perform (.wrDur n d) s = .refused (.noSuchRegister n) ∧
      perform (.rd n) s = .refused (.noSuchRegister n) := by
  simp [perform, registerOf_eq_none hn]

theorem perform_byte_beyond {s : State} {p : Plane} {i : Nat} (hi : planeCapacity s p ≤ i) (v : Byte) :
    perform (.stByte p i v) s = .refused (.beyondCapacity (.byte p i)) ∧
      perform (.ldByte p i) s = .refused (.beyondCapacity (.byte p i)) :=
  ⟨if_neg (Nat.not_lt.mpr hi), if_neg (Nat.not_lt.mpr hi)⟩

theorem perform_word_beyond {s : State} {i : Nat} (hi : s.cap.fbWords ≤ i) (b : Buffer) (v : Pixel) :
    perform (.stWord .fb0 i v) s = .refused (.beyondCapacity (.word .fb0 i)) ∧
      perform (.ldWord b i) s = .refused (.beyondCapacity (.word b i)) :=
  ⟨if_neg (Nat.not_lt.mpr hi), if_neg (Nat.not_lt.mpr hi)⟩

theorem perform_ldByte_of_unwritten {s : State} {p : Plane} {i : Nat} (hi : i < planeCapacity s p)
    (h : Memory.read (plane s p) i = none) :
    perform (.ldByte p i) s = .refused (.unspecifiedRead (.byte p i)) := by
  simp [perform, hostLoadByte, hi, h]

theorem perform_ldWord_of_unwritten {s : State} {b : Buffer} {i : Nat} (hi : i < s.cap.fbWords)
    (h : Memory.read (buffer s b) i = none) :
    perform (.ldWord b i) s = .refused (.unspecifiedRead (.word b i)) := by
  simp [perform, hostLoadWord, hi, h]

theorem readCell_of_unwritten {α : Type} {c : RegCell α} (h : c.written = false) (r : RegName)
    (form : α → Observed) (s : State) : readCell c r form s = .refused (.unspecifiedRead (.reg r)) :=
  if_neg (by simp [h])

/-- Settles O54: each refusal is the failing test of its access, and a read-only register ignores both forms of
a write. -/
theorem hostRefusals : Obligations.HostRefusals := by
  intro s
  refine ⟨rfl, fun _ _ => rfl, fun n v d hn => perform_of_no_register hn v d s,
    fun p i v hi => perform_byte_beyond hi v, fun b i v hi => perform_word_beyond hi b v,
    fun p i => perform_ldByte_of_unwritten, fun b i => perform_ldWord_of_unwritten, fun c hc hw => ?_,
    fun n hn v d => ?_⟩
  · simp only [List.mem_cons, List.not_mem_nil, or_false] at hc
    rcases hc with rfl | rfl | rfl | rfl | rfl | rfl | rfl | rfl | rfl | rfl | rfl | rfl | rfl | rfl | rfl |
      rfl | rfl | rfl | rfl
    all_goals exact readCell_of_unwritten hw _ _ s
  · simp only [List.mem_cons, List.not_mem_nil, or_false] at hn
    rcases hn with rfl | rfl | rfl <;> exact ⟨rfl, rfl⟩

end Sys2Proof.Machine

/-! PROOFS. The statements of 70_reset_and_hazards: the capacities that every step keeps, and the CORE that the
hardware reset constructs. -/

namespace Sys2Proof.Machine

/-! ## The capacities (70_reset R181, 00_scope R3, 20_memory R40) -/

/-- The capacities fixed at construction: the ring capacity is `n` and the memory spaces have `c`. -/
def HasCapacities (n : Nat) (c : Capacities) (s : State) : Prop := s.trk.n = n ∧ s.cap = c

/-- No change that a step can make touches a capacity: a record writes the ring within its capacity,
`TRK.RESET` clears the counters alone, and the hardware reset constructs anew with the same capacities. -/
theorem step_keeps_capacities (n : Nat) (c : Capacities) :
    ∀ s t, HasCapacities n c s → step s = .next t → HasCapacities n c t :=
  step_keeps (HasCapacities n c)
    (convert := fun _ h _ => h)
    (filter := fun _ _ h _ => h)
    (record := fun _ h => h)
    (query := fun _ _ _ h => h)
    (clear := fun _ h => h)
    (operand := fun _ _ _ _ _ h => h)
    (byte := fun s p i v h _ => by rw [storeByte_frame]; exact h)
    (word := fun _ _ _ h _ => h)
    (host := fun _ _ h => h)
    (time := fun _ _ h => h)
    (reset := fun _ h => h)

/-- Settles O12: to have the capacities of `s` is kept by the step from `s`. -/
theorem capacityNeverChanges : Obligations.CapacityNeverChanges :=
  fun s t => step_keeps_capacities s.trk.n s.cap s t ⟨rfl, rfl⟩

/-! ## The hardware reset (70_reset R180, R182; 60_exceptions R166) -/

/-- With the reset signal next, a step is the hardware reset, whatever the fault mark. -/
theorem step_of_reset {s : State} {rest : List HostAction} (hl : s.host.todo = .reset :: rest) :
    step s = .next (advanceHost (hardwareReset s)) := by
  rw [step, hostStep, hl]
  rfl

/-- The hardware reset leaves what `State.reset` holds, but for the capacities and the agents outside the
CORE. -/
theorem hardwareReset_eq (s : State) :
    hardwareReset s = { State.reset with
      trk := Tracker.fresh s.trk.n, cap := s.cap, timeNext := s.timeNext, draws := s.draws, host := s.host } :=
  rfl

theorem validSamples_fresh (n : Nat) : validSamples (Tracker.fresh n) = [] := rfl

/-- Settles O16: the next state is the CORE constructed anew, with the host moved on past the signal. -/
theorem hardwareResetConstructsAnew : Obligations.HardwareResetConstructsAnew := by
  intro s rest hl
  have hhost : (advanceHost (hardwareReset s)).host = ⟨rest, s.host.index + 1, s.host.seen⟩ := by
    simp [hl]
  refine ⟨advanceHost (hardwareReset s), step_of_reset hl, rfl, rfl, rfl, validSamples_fresh _, rfl, rfl,
    read_plane_constructed true s.cap s.trk.n, read_buffer_constructed true s.cap s.trk.n, hhost, ?_⟩
  rw [← hhost, hardwareReset_eq]
  rfl

end Sys2Proof.Machine

/-! PROOFS. The words of 95_test_vectors section 2.1 that the statements name. -/

namespace Sys2Proof

/-! ## Words written out (30_encoding R61, R65) -/

/-- A word that matches no row is illegal, under the name of the first case of R65 that it falls in. -/
theorem decode_of_no_row {w : Word} (h : w &&& matchMask ∉ matchWords) :
    decode w = .illegal (whyIllegal w) := by
  simp only [List.mem_cons, not_or] at h
  simp [decode, h]

/-- Settles O2: each legal word has the match bits of its row and the mode in `MODE`; each illegal one
matches no row and falls in the named case. -/
theorem specWordsDecode : Obligations.SpecWordsDecode := by
  refine ⟨?convert, ?gray, ?emboss, ?record, ?average, ?noFunction, ?noArgument, ?noUnit, ?reserved⟩
  case convert | gray | emboss | record | average => exact decode_of_row (by decide) rfl
  case noFunction | noArgument | noUnit | reserved => exact decode_of_no_row (by decide)

end Sys2Proof
